-- ==== Sys2Proof/Word.lean ====
section
/-! DEFINITION. The two bit vectors of the block: a raw Q16.16 value and an operation code. -/

namespace Sys2Proof

/-- The 32 bits of a `FixedPoint32` value, its raw integer (R2, R17). -/
abbrev Word := BitVec 32

/-- The 5 bits of the operation-select port (R30). -/
abbrev Code := BitVec 5

end Sys2Proof
end

