-- ==== Sys2Proof/Config.lean ====
section
/-! DEFINITION. The parameters of R5, R6 and R7. Each has one value on this hardware; none is an open value, so
there is no free value here (R4). -/

namespace Sys2Proof.Config

/-- `WIDTH`: the bits of `raw`, of every operand and of every result (R5). -/
def width : Nat := 32

/-- `FRAC_BITS`: the fraction bits (R5). -/
def fracBits : Nat := 16

/-- `INT_BITS`: the integer bits, sign included (R5). -/
def intBits : Nat := 16

/-- `SCALE`: the scale factor (R5). -/
def scale : Int := 65536

/-- `PRODUCT_WIDTH`: the bits of the product inside MUL (R6). -/
def productWidth : Nat := 64

/-- What becomes of an integer that does not fit 32 bits. The spec gives this hardware one policy (R7, R8): the
alternative `saturate` is named there and not specified (U4). -/
inductive Overflow where
  | wrap
deriving DecidableEq, Repr

/-- `ADDSUB_OVERFLOW` (R7). UNVERIFIED, see log entry 10. -/
def addSubOverflow : Overflow := .wrap

/-- `MUL_SAT_VALUE_NEG`: what MUL gives on negative overflow, `MaxValue` (R7). UNVERIFIED, see log entry 10. -/
def mulSatValueNeg : Word := 0x7FFFFFFF#32

/-- `MUL_ROUND_CAST`: the conversion of MUL's rounded result to 32 bits (R7, R59). UNVERIFIED, see log entry 7. -/
def mulRoundCast : Overflow := .wrap

end Sys2Proof.Config
end

