-- ==== Sys2Proof/Syntax.lean ====
section
/-! DEFINITION. The seventeen operations of 30_encoding.md table 2, in the table's order. -/

namespace Sys2Proof

/-- One constructor per defined operation code (R30). The code has no fields, and operands stand on the ports
`a`, `b`, `c` and not in the instruction (R30, R32), so no constructor has an argument. -/
inductive Instr where
  | pass
  | add
  | sub
  | neg
  | mul
  | abs
  | floor
  | ceil
  | min
  | max
  | clamp
  | clamp01
  | zero
  | one
  | minusone
  | maxvalue
  | minvalue
deriving DecidableEq, Repr

end Sys2Proof
end

