-- ==== Sys2Proof/WellFormed.lean ====
section
/-! DEFINITION. What the host may present. An `Instr` has no field that could be wrong (R30, R32), so every term of
it is well formed; what can be ill formed is the code on the port. The checks on a transcript's lines stand beside
their types in Machine/Transcript.lean. -/

namespace Sys2Proof

/-- The host's duty of R33: the code is none of `0x0C` to `0x0F` and `0x15` to `0x1F`. -/
def definedCode (op : Code) : Bool :=
  !((0x0C ≤ op.toNat && op.toNat ≤ 0x0F) || (0x15 ≤ op.toNat && op.toNat ≤ 0x1F))

end Sys2Proof
end

