-- ==== Sys2Proof/Decode.lean ====
section
/-! DEFINITION. Decoding and encoding of the 5-bit operation code, from 30_encoding.md table 2 (R30). -/

namespace Sys2Proof

/-- Why a code has no operation. -/
inductive Rejection where
  /-- One of the fifteen reserved codes (R33). -/
  | reserved (op : Code)
deriving DecidableEq, Repr

/-- 30_encoding.md table 2, row by row (R30). -/
def operationTable : List (Code × Instr) :=
  [ (0x00, .pass),
    (0x01, .add),
    (0x02, .sub),
    (0x03, .neg),
    (0x04, .mul),
    (0x05, .abs),
    (0x06, .floor),
    (0x07, .ceil),
    (0x08, .min),
    (0x09, .max),
    (0x0A, .clamp),
    (0x0B, .clamp01),
    (0x10, .zero),
    (0x11, .one),
    (0x12, .minusone),
    (0x13, .maxvalue),
    (0x14, .minvalue) ]

/-- The operation a code selects; total, and every code outside the table is rejected as reserved (R30, R33). -/
def decode (op : Code) : Except Rejection Instr :=
  match operationTable.find? (fun row => row.1 == op) with
  | some row => .ok row.2
  | none => .error (.reserved op)

/-- The code of an operation (R30). -/
def encode : Instr → Code
  | .pass => 0b00000
  | .add => 0b00001
  | .sub => 0b00010
  | .neg => 0b00011
  | .mul => 0b00100
  | .abs => 0b00101
  | .floor => 0b00110
  | .ceil => 0b00111
  | .min => 0b01000
  | .max => 0b01001
  | .clamp => 0b01010
  | .clamp01 => 0b01011
  | .zero => 0b10000
  | .one => 0b10001
  | .minusone => 0b10010
  | .maxvalue => 0b10011
  | .minvalue => 0b10100

/-- The 5 wires of `op` when a word of the table's numbering is presented: the first `nbits` bits of `w`, the rest
zero, of which the port has wires 4 to 0 (the table's mask is `0x1F`). DEDUCED, see log entry 11. -/
def tableCode (nbits w : Nat) : Code :=
  BitVec.ofNat 5 (w % 2 ^ nbits)

/-- The operation decoded from a word of the opcode table's numbering. -/
def decodeTableWord (nbits w : Nat) : Option Instr :=
  match decode (tableCode nbits w) with
  | .ok i => some i
  | .error _ => none

end Sys2Proof
end

