-- ==== Sys2Proof/Machine/State.lean ====
section
/-! DEFINITION. The state of the model: the five ports of R11 around one evaluation. The block itself keeps nothing
(R10, R12 to R15, R18). -/

namespace Sys2Proof.Machine

/-- The block's five ports (R11). `op`, `a`, `b`, `c` are what the host drives; `y` is what the block drives. After a
step `y` is the result of the inputs beside it; before one it is no result and no step reads it (R10, R18, R84).
DESIGN CHOICE, see log entries 1 and 3. -/
structure State where
  /-- Operation-select input, `op[4:0]` (R11, R30). -/
  op : Code
  /-- First operand input, `a[31:0]` (R11). -/
  a : Word
  /-- Second operand input, `b[31:0]` (R11). -/
  b : Word
  /-- Third operand input, `c[31:0]` (R11). -/
  c : Word
  /-- Result output, `y[31:0]` (R11). -/
  y : Word
deriving DecidableEq, Repr

/-- The block has no fault: no operation and no operand raises anything (R3, R70, R74). -/
inductive Fault where
deriving DecidableEq, Repr

/-- Why an evaluation is given no meaning. -/
inductive Refusal where
  /-- An arm of `exec` whose instruction has no meaning yet; no arm raises it now. Safe: the model stops. -/
  | notModelled (mnemonic : String)
  /-- Raised by `step` when `op` holds a reserved code, under which `y` is unspecified and which a model refuses
  (R33). Safe: the model stops where the hardware drives some unspecified `y`. See log entry 5. -/
  | reservedCode (op : Code)
deriving DecidableEq, Repr

/-- The ports before the host has presented anything. R19 and R80 give no reset value. DESIGN CHOICE: every input
port is zero, and `y` is what R11 gives for those inputs; see log entry 2. -/
def State.reset : State :=
  { op := 0, a := 0, b := 0, c := 0, y := 0 }

end Sys2Proof.Machine
end

