-- ==== Sys2Proof/Machine/Ops.lean ====
section
/-! DEFINITION. The operations every meaning is written over: the integer readings of a word and the narrowing back
(00_scope.md section 7), the wrapping arithmetic and the signed choice, and the accesses to the ports. There is no
memory (R20), no register file (R12) and no exception to take or return from (R70, R74), so no operation for those. -/

namespace Sys2Proof.Machine

/-- What an evaluation answers. -/
abbrev Result := Host.Outcome State Fault Refusal

/-- `s32(v)`: the two's-complement reading (00_scope.md section 7.1). -/
def s32 (v : Word) : Int :=
  v.toInt

/-- `u32(v)`: the unsigned reading (00_scope.md section 7.1). -/
def u32 (v : Word) : Int :=
  v.toNat

/-- `bv32(n)`: the low 32 bits of an integer (00_scope.md section 7.1). -/
def bv32 (n : Int) : Word :=
  BitVec.ofInt 32 n

/-- `bv64(n)`: the low 64 bits of an integer (00_scope.md section 7.1). -/
def bv64 (n : Int) : BitVec 64 :=
  BitVec.ofInt 64 n

/-- An exact integer made a 32-bit result under an overflow policy (R7, R8). -/
def narrow (policy : Config.Overflow) (n : Int) : Word :=
  match policy with
  | .wrap => bv32 n

/-- `x +32 y` (00_scope.md section 7.2, R8). -/
def wrapAdd (x y : Word) : Word :=
  bv32 (u32 x + u32 y)

/-- `x -32 y` (00_scope.md section 7.2, R8). -/
def wrapSub (x y : Word) : Word :=
  bv32 (u32 x - u32 y)

/-- `(x <s y) ? x : y`, the signed choice of the smaller (R63, R67). -/
def signedMin (x y : Word) : Word :=
  if s32 x < s32 y then x else y

/-- `(x >s y) ? x : y`, the signed choice of the larger (R64, R67). -/
def signedMax (x y : Word) : Word :=
  if s32 x > s32 y then x else y

/-- `y <- v`: the one thing an operation writes (00_scope.md section 7.3, R9). -/
def State.driveY (s : State) (v : Word) : State :=
  { s with y := v }

/-- The host drives the input ports (R11, R81). `y` keeps what it held until the next step settles it; no step reads
it (R84). DESIGN CHOICE, see log entry 3. -/
def State.present (s : State) (op : Code) (a b c : Word) : State :=
  { s with op := op, a := a, b := b, c := c }

/-- The host samples the result port (R84). -/
def State.sample (s : State) : Word :=
  s.y

/-- The code that selects the evaluation: the present value of `op` (R13, R28). -/
def fetch (s : State) : Code :=
  s.op

/-- A rejected code gives the evaluation no meaning (R33). -/
def refuseCode : Rejection → Result
  | .reserved op => .refused (.reservedCode op)

end Sys2Proof.Machine
end

