-- ==== Sys2Proof/Machine/Operands.lean ====
section
/-! DEFINITION. The operand forms: the four classes of R31 and the evaluation of an operation of each class. There
are no immediates and no operand modes (R32). -/

namespace Sys2Proof.Machine

/-- The three operand ports (R11). -/
inductive Port where
  | a
  | b
  | c
deriving DecidableEq, Repr

/-- The operand classes of R31: N reads nothing, U reads `a`, B reads `a` and `b`, T reads all three. -/
inductive OperandClass where
  | classN
  | classU
  | classB
  | classT
deriving DecidableEq, Repr

/-- The whole 32 bits on a port, taken verbatim (R21, R32). -/
def State.readPort (s : State) : Port → Word
  | .a => s.a
  | .b => s.b
  | .c => s.c

/-- The ports a class reads, in the source's argument order (R31). -/
def portsRead : OperandClass → List Port
  | .classN => []
  | .classU => [.a]
  | .classB => [.a, .b]
  | .classT => [.a, .b, .c]

/-- The class column of 30_encoding.md table 2 (R31). -/
def operandClass : Instr → OperandClass
  | .pass => .classU
  | .add => .classB
  | .sub => .classB
  | .neg => .classU
  | .mul => .classB
  | .abs => .classU
  | .floor => .classU
  | .ceil => .classU
  | .min => .classB
  | .max => .classB
  | .clamp => .classT
  | .clamp01 => .classU
  | .zero => .classN
  | .one => .classN
  | .minusone => .classN
  | .maxvalue => .classN
  | .minvalue => .classN

/-- Evaluation of a class N operation: no port is read (R31). -/
def evalN (v : Word) (s : State) : Result :=
  .next (s.driveY v)

/-- Evaluation of a class U operation: `a` is read (R31). -/
def evalU (f : Word → Word) (s : State) : Result :=
  .next (s.driveY (f (s.readPort .a)))

/-- Evaluation of a class B operation: `a` and `b` are read (R31). -/
def evalB (f : Word → Word → Word) (s : State) : Result :=
  .next (s.driveY (f (s.readPort .a) (s.readPort .b)))

/-- Evaluation of a class T operation: `a`, `b` and `c` are read (R31). -/
def evalT (f : Word → Word → Word → Word) (s : State) : Result :=
  .next (s.driveY (f (s.readPort .a) (s.readPort .b) (s.readPort .c)))

/-- The host drives exactly the ports a class reads, in order, and leaves the others at what they hold (R31, R35).
`none` when the number of operands is not the class's (R34). DESIGN CHOICE for the unread ports, see log entry 12. -/
def presentOperands (k : OperandClass) (op : Code) (ws : List Word) (s : State) : Option State :=
  match k, ws with
  | .classN, [] => some (s.present op s.a s.b s.c)
  | .classU, [x] => some (s.present op x s.b s.c)
  | .classB, [x, y] => some (s.present op x y s.c)
  | .classT, [x, y, z] => some (s.present op x y z)
  | _, _ => none

end Sys2Proof.Machine
end

