-- ==== Sys2Proof/Machine/Constants.lean ====
section
/-! DEFINITION. The hardwired constants (R16), their five generators (R40 to R44) and PASS (R45). -/

namespace Sys2Proof.Machine

/-- `Zero`, raw 0 (R16). -/
def zeroWord : Word := 0x00000000#32

/-- `One`, raw 65536 (R16). -/
def oneWord : Word := 0x00010000#32

/-- `MinusOne`, raw -65536 (R16). -/
def minusOneWord : Word := 0xFFFF0000#32

/-- `MaxValue`, raw 2147483647 (R16). -/
def maxWord : Word := 0x7FFFFFFF#32

/-- `MinValue`, raw -2147483648 (R16). -/
def minWord : Word := 0x80000000#32

/-- `y <- a` (R45). -/
def passResult (a : Word) : Word :=
  a

/-- ZERO (R40). -/
def execZero (s : State) : Result :=
  evalN zeroWord s

/-- ONE (R41). -/
def execOne (s : State) : Result :=
  evalN oneWord s

/-- MINUSONE (R42). -/
def execMinusone (s : State) : Result :=
  evalN minusOneWord s

/-- MAXVALUE (R43). -/
def execMaxvalue (s : State) : Result :=
  evalN maxWord s

/-- MINVALUE (R44). -/
def execMinvalue (s : State) : Result :=
  evalN minWord s

/-- PASS (R45). -/
def execPass (s : State) : Result :=
  evalU passResult s

end Sys2Proof.Machine
end

