-- ==== Sys2Proof/Machine/Additive.lean ====
section
/-! DEFINITION. ADD, SUB and NEG (R50 to R53). -/

namespace Sys2Proof.Machine

/-- `bv32(s32(a) + s32(b))`, the wrapping sum (R50). -/
def addResult (a b : Word) : Word :=
  narrow Config.addSubOverflow (s32 a + s32 b)

/-- `bv32(s32(a) - s32(b))`, the wrapping difference (R51). -/
def subResult (a b : Word) : Word :=
  narrow Config.addSubOverflow (s32 a - s32 b)

/-- `0x00000000 -32 a`, the wrapping negation (R52). UNVERIFIED at `MinValue`, see log entry 6. -/
def negResult (a : Word) : Word :=
  wrapSub zeroWord a

/-- ADD (R50). -/
def execAdd (s : State) : Result :=
  evalB addResult s

/-- SUB (R51). -/
def execSub (s : State) : Result :=
  evalB subResult s

/-- NEG (R52). -/
def execNeg (s : State) : Result :=
  evalU negResult s

end Sys2Proof.Machine
end

