-- ==== Sys2Proof/Machine/Multiply.lean ====
section
/-! DEFINITION. MUL, the six steps of R55. -/

namespace Sys2Proof.Machine

/-- Step 1: the exact signed product, which fits 64 bits (R6, R55). -/
def product (a b : Word) : Int :=
  s32 a * s32 b

/-- Step 2: bits 63 to 47 of the product (R55). -/
def upperBits (p : Int) : BitVec 17 :=
  (bv64 p).extractLsb 63 47

/-- Steps 4 and 5: the arithmetic shift right by 16, then plus bit 15 of what was shifted (R55). -/
def shiftAndRound (q : Int) : Int :=
  q / 65536 + (if (bv64 q).getLsbD 15 then 1 else 0)

/-- Steps 3 to 6 on the exact product (R55): the range check, MaxValue on overflow in either direction, the tie
correction of a negative product, the shift and the rounding, and the cast to 32 bits (R59). UNVERIFIED, see log
entries 7 and 10. -/
def mulOfProduct (p : Int) : Word :=
  if p < 0 then
    if upperBits p ≠ 0x1FFFF#17 then Config.mulSatValueNeg
    else narrow Config.mulRoundCast (shiftAndRound (p - 1))
  else
    if upperBits p ≠ 0#17 then maxWord
    else narrow Config.mulRoundCast (shiftAndRound p)

/-- The saturating, rounding Q16.16 product (R55). -/
def mulResult (a b : Word) : Word :=
  mulOfProduct (product a b)

/-- MUL (R55). -/
def execMul (s : State) : Result :=
  evalB mulResult s

end Sys2Proof.Machine
end

