-- ==== Sys2Proof/Machine/Shape.lean ====
section
/-! DEFINITION. ABS, FLOOR, CEIL, MIN, MAX, CLAMP and CLAMP01 (R60 to R67). -/

namespace Sys2Proof.Machine

/-- `(a <s 0) ? (0 -32 a) : a` (R60). -/
def absResult (a : Word) : Word :=
  if s32 a < 0 then wrapSub zeroWord a else a

/-- `a & 0xFFFF0000` (R61). -/
def floorResult (a : Word) : Word :=
  a &&& 0xFFFF0000#32

/-- The cleared value, plus `One` (wrapping) when any of the low 16 bits is set (R62). UNVERIFIED above 32767.0, see
log entry 8. -/
def ceilResult (a : Word) : Word :=
  if a &&& 0x0000FFFF#32 ≠ 0 then wrapAdd (a &&& 0xFFFF0000#32) oneWord else a &&& 0xFFFF0000#32

/-- `(a <s b) ? a : b` (R63). -/
def minResult (a b : Word) : Word :=
  signedMin a b

/-- `(a >s b) ? a : b` (R64). -/
def maxResult (a b : Word) : Word :=
  signedMax a b

/-- First `t = MAX a, b`, then `MIN t, c` (R65). UNVERIFIED for crossed bounds, see log entry 9. -/
def clampResult (a b c : Word) : Word :=
  signedMin (signedMax a b) c

/-- `(a <s Zero) ? Zero : ((a >s One) ? One : a)` (R66). -/
def clamp01Result (a : Word) : Word :=
  if s32 a < s32 zeroWord then zeroWord
  else if s32 a > s32 oneWord then oneWord
  else a

/-- ABS (R60). -/
def execAbs (s : State) : Result :=
  evalU absResult s

/-- FLOOR (R61). -/
def execFloor (s : State) : Result :=
  evalU floorResult s

/-- CEIL (R62). -/
def execCeil (s : State) : Result :=
  evalU ceilResult s

/-- MIN (R63). -/
def execMin (s : State) : Result :=
  evalB minResult s

/-- MAX (R64). -/
def execMax (s : State) : Result :=
  evalB maxResult s

/-- CLAMP (R65). -/
def execClamp (s : State) : Result :=
  evalT clampResult s

/-- CLAMP01 (R66). -/
def execClamp01 (s : State) : Result :=
  evalU clamp01Result s

end Sys2Proof.Machine
end

