-- ==== Sys2Proof/Machine/Dispatch.lean ====
section
/-! DEFINITION. The dispatch of an operation to its meaning, in the order of 30_encoding.md table 2. -/

namespace Sys2Proof.Machine

/-- The evaluation of one operation on the ports of a state. -/
def exec (i : Instr) (s : State) : Host.Outcome State Fault Refusal :=
  match i with
  | .pass => Sys2Proof.Machine.execPass s
  | .add => Sys2Proof.Machine.execAdd s
  | .sub => Sys2Proof.Machine.execSub s
  | .neg => Sys2Proof.Machine.execNeg s
  | .mul => Sys2Proof.Machine.execMul s
  | .abs => Sys2Proof.Machine.execAbs s
  | .floor => Sys2Proof.Machine.execFloor s
  | .ceil => Sys2Proof.Machine.execCeil s
  | .min => Sys2Proof.Machine.execMin s
  | .max => Sys2Proof.Machine.execMax s
  | .clamp => Sys2Proof.Machine.execClamp s
  | .clamp01 => Sys2Proof.Machine.execClamp01 s
  | .zero => Sys2Proof.Machine.execZero s
  | .one => Sys2Proof.Machine.execOne s
  | .minusone => Sys2Proof.Machine.execMinusone s
  | .maxvalue => Sys2Proof.Machine.execMaxvalue s
  | .minvalue => Sys2Proof.Machine.execMinvalue s

end Sys2Proof.Machine
end

