-- ==== Sys2Proof/Machine/Step.lean ====
section
/-! DEFINITION. One step: one settled evaluation of what the ports present (R13, R84, R85). -/

namespace Sys2Proof.Machine

/-- The operation that `op` selects is evaluated on the operand ports; a reserved code is refused (R11, R33). One step
is one evaluation, over when `y` carries its result (R85). DESIGN CHOICE, see log entry 3. -/
def step (s : State) : Host.Outcome State Fault Refusal :=
  match decode (fetch s) with
  | .ok i => exec i s
  | .error r => refuseCode r

/-- The host drives `op` with a word of the opcode table's numbering; there is no fetch from a memory (R13, R28).
DESIGN CHOICE, see log entry 4. -/
def State.withFetchWord (s : State) (nbits w : Nat) : State :=
  { s with op := tableCode nbits w }

end Sys2Proof.Machine
end

