-- ==== Sys2Proof/Machine/Flags.lean ====
section
/-! DEFINITION. The block has no flags, condition codes or status outputs, and no operation writes any (R14, R71).
What stands here are the host's own recognitions of overflow, computed from port values alone (R53, R71); no meaning
calls them. -/

namespace Sys2Proof.Machine

/-- R53: an ADD of `a` and `b` that gave `y` overflowed. -/
def addOverflowSeen (a b y : Word) : Bool :=
  a.msb == b.msb && y.msb != a.msb

/-- R53: a SUB of `b` from `a` that gave `y` overflowed. -/
def subOverflowSeen (a b y : Word) : Bool :=
  a.msb != b.msb && y.msb != a.msb

/-- R53: a NEG of `a` overflowed. -/
def negOverflowSeen (a : Word) : Bool :=
  a == 0x80000000#32

/-- R71: the source's advice for detecting saturation, a comparison with `MaxValue` and `MinValue`. It has false
positives. -/
def atRangeBoundary (y : Word) : Bool :=
  y == 0x7FFFFFFF#32 || y == 0x80000000#32

end Sys2Proof.Machine
end

