-- ==== Sys2Proof/Machine/Transcript.lean ====
section
/-! DEFINITION. The textual form of an operation (R34) and the transcript, the host's sequence of evaluations (R35).
The block has no sequencing of its own (R13): the names and their values are the host's, held in `Desk` beside the
block's ports and never among them. -/

namespace Sys2Proof.Machine

/-- The constant names an operand may be written as (R34). -/
inductive ConstName where
  | zero
  | one
  | minusOne
  | maxValue
  | minValue
deriving DecidableEq, Repr

/-- A decimal literal, `mantissa / 10 ^ places`. -/
structure Decimal where
  mantissa : Int
  places : Nat
deriving DecidableEq, Repr

/-- An operand of a line (R34). -/
inductive Operand where
  /-- A 32-bit hexadecimal raw literal. -/
  | raw (w : Word)
  /-- `fx(d)`. -/
  | fixed (d : Decimal)
  /-- One of the five constant names. -/
  | const (k : ConstName)
  /-- A name bound before. -/
  | name (n : String)
deriving DecidableEq, Repr

/-- `name = MNEMONIC operands` (R35). -/
structure Line where
  name : String
  op : Instr
  operands : List Operand
deriving DecidableEq, Repr

/-- The host's named values (R35). -/
abbrev Names := List (String × Word)

/-- The host's side of a transcript: the block's ports, and the values the host has kept (R17, R35). -/
structure Desk where
  block : State
  names : Names
deriving DecidableEq, Repr

/-- Why a line is not evaluated. -/
inductive LineRefusal where
  /-- The line binds a name that is bound already. Safe: the model stops. See log entry 12. -/
  | nameBoundTwice (n : String)
  /-- An operand names nothing bound on an earlier line (R35). Safe: the line has no meaning. -/
  | unboundName (n : String)
  /-- `fx` of a decimal that is no 32-bit multiple of 1/65536 (U11). Safe: the model stops. See log entry 14. -/
  | inexactDecimal (d : Decimal)
  /-- The number of operands is not that of the operation's class (R31, R34). Safe: the line has no meaning. -/
  | wrongOperandCount (op : Instr)
  /-- The block refused the evaluation. Safe, as the refusal itself. -/
  | block (r : Refusal)
deriving DecidableEq, Repr

/-- The mnemonic column of 30_encoding.md table 2 (R34). -/
def mnemonic : Instr → String
  | .pass => "PASS"
  | .add => "ADD"
  | .sub => "SUB"
  | .neg => "NEG"
  | .mul => "MUL"
  | .abs => "ABS"
  | .floor => "FLOOR"
  | .ceil => "CEIL"
  | .min => "MIN"
  | .max => "MAX"
  | .clamp => "CLAMP"
  | .clamp01 => "CLAMP01"
  | .zero => "ZERO"
  | .one => "ONE"
  | .minusone => "MINUSONE"
  | .maxvalue => "MAXVALUE"
  | .minvalue => "MINVALUE"

/-- Every operation, in the order of the codes. -/
def allInstrs : List Instr :=
  operationTable.map (fun row => row.2)

/-- The operation a mnemonic or an alias stands for (R34, 30_encoding.md table 3). -/
def instrOfMnemonic (m : String) : Option Instr :=
  if m = "FROMRAW" then some .pass
  else if m = "NEGATE" then some .neg
  else allInstrs.find? (fun i => mnemonic i == m)

/-- The raw pattern a constant name stands for (R16, R34). -/
def constWord : ConstName → Word
  | .zero => zeroWord
  | .one => oneWord
  | .minusOne => minusOneWord
  | .maxValue => maxWord
  | .minValue => minWord

/-- `fx(d)`: `bv32(d × 65536)` when that is an integer in -2^31 to 2^31 - 1, else nothing (00_scope.md section 7.1,
U11). -/
def fx (d : Decimal) : Option Word :=
  let num := d.mantissa * Config.scale
  let den : Int := 10 ^ d.places
  if num % den = 0 ∧ -2147483648 ≤ num / den ∧ num / den ≤ 2147483647 then some (bv32 (num / den)) else none

/-- The 32 bits an operand stands for, under the names bound so far (R34, R35). -/
def operandWord (names : Names) : Operand → Except LineRefusal Word
  | .raw w => .ok w
  | .fixed d =>
    match fx d with
    | some w => .ok w
    | none => .error (.inexactDecimal d)
  | .const k => .ok (constWord k)
  | .name n =>
    match names.lookup n with
    | some w => .ok w
    | none => .error (.unboundName n)

/-- The operands of a line, in port order (R34). -/
def operandWords (names : Names) : List Operand → Except LineRefusal (List Word)
  | [] => .ok []
  | o :: os =>
    match operandWord names o with
    | .error e => .error e
    | .ok w =>
      match operandWords names os with
      | .error e => .error e
      | .ok ws => .ok (w :: ws)

/-- The ports a line presents to the block: its code, and its operands on the ports its class reads (R35). -/
def presentLine (l : Line) (d : Desk) : Except LineRefusal State :=
  match operandWords d.names l.operands with
  | .error e => .error e
  | .ok ws =>
    match presentOperands (operandClass l.op) (encode l.op) ws d.block with
    | none => .error (.wrongOperandCount l.op)
    | some s => .ok s

/-- The host keeps the sampled result of a line under the line's name (R35). -/
def keepResult (l : Line) (d : Desk) (t : State) : Desk :=
  { block := t, names := d.names ++ [(l.name, t.sample)] }

/-- One line is one evaluation of the block (R35). -/
def runLine (l : Line) (d : Desk) : Host.Outcome Desk Fault LineRefusal :=
  if (d.names.lookup l.name).isSome then .refused (.nameBoundTwice l.name)
  else
    match presentLine l d with
    | .error e => .refused e
    | .ok s =>
      match step s with
      | .next t => .next (keepResult l d t)
      | .fault f => .fault f
      | .refused r => .refused (.block r)

/-- A transcript, line by line; its end state is the names at its last line (R35, R85). -/
def runTranscript : List Line → Desk → Host.Outcome Desk Fault LineRefusal
  | [], d => .next d
  | l :: ls, d =>
    match runLine l d with
    | .next d' => runTranscript ls d'
    | .fault f => .fault f
    | .refused r => .refused r

/-- An operand is well formed under a list of bound names (R34, R35, U11). -/
def wellFormedOperand (bound : List String) : Operand → Bool
  | .raw _ => true
  | .fixed d => (fx d).isSome
  | .const _ => true
  | .name n => bound.contains n

/-- A line is well formed under a list of bound names: a fresh name, one operand per port read, each well formed. -/
def wellFormedLine (bound : List String) (l : Line) : Bool :=
  !bound.contains l.name && l.operands.length == (portsRead (operandClass l.op)).length
    && l.operands.all (wellFormedOperand bound)

/-- Every line of a transcript is well formed under the names bound before it (R35). -/
def wellFormedTranscript : List String → List Line → Bool
  | _, [] => true
  | bound, l :: ls => wellFormedLine bound l && wellFormedTranscript (bound ++ [l.name]) ls

/-- The encoding of a line, the tuple `(op, a, b, c)`; `none` is the `-` of a port that is not read (R35). -/
structure LineCode where
  op : Code
  a : Option Word
  b : Option Word
  c : Option Word
deriving DecidableEq, Repr

/-- The value on a port when the class reads it (R31, R35). -/
def portIfRead (k : OperandClass) (s : State) (p : Port) : Option Word :=
  if p ∈ portsRead k then some (s.readPort p) else none

/-- The tuple a line presents (R35). -/
def lineCode (l : Line) (d : Desk) : Except LineRefusal LineCode :=
  match presentLine l d with
  | .error e => .error e
  | .ok s =>
    .ok
      { op := fetch s,
        a := portIfRead (operandClass l.op) s .a,
        b := portIfRead (operandClass l.op) s .b,
        c := portIfRead (operandClass l.op) s .c }

/-- One hexadecimal digit, in capitals. -/
def hexDigit (n : Nat) : Char :=
  if n < 10 then Char.ofNat (48 + n) else Char.ofNat (55 + n)

/-- The last `k` hexadecimal digits of `n`. -/
def hexDigits : Nat → Nat → List Char
  | 0, _ => []
  | k + 1, n => hexDigits k (n / 16) ++ [hexDigit (n % 16)]

/-- The last `k` binary digits of `n`. -/
def binDigits : Nat → Nat → List Char
  | 0, _ => []
  | k + 1, n => binDigits k (n / 2) ++ [hexDigit (n % 2)]

/-- The last `k` decimal digits of `n`. -/
def decDigits : Nat → Nat → List Char
  | 0, _ => []
  | k + 1, n => decDigits k (n / 10) ++ [hexDigit (n % 10)]

/-- A word as 8 hexadecimal digits (R35). -/
def wordText (w : Word) : String :=
  String.ofList (hexDigits 8 w.toNat)

/-- A read operand as its digits, an unread one as `-` (R35). -/
def portText : Option Word → String
  | some w => wordText w
  | none => "-"

/-- The written form of a tuple: 5 binary digits, then the three ports (R35). -/
def lineCodeText (t : LineCode) : String :=
  "(" ++ String.ofList (binDigits 5 t.op.toNat) ++ ", " ++ portText t.a ++ ", " ++ portText t.b ++ ", "
    ++ portText t.c ++ ")"

/-- The spelling of a constant name (R34). -/
def constText : ConstName → String
  | .zero => "Zero"
  | .one => "One"
  | .minusOne => "MinusOne"
  | .maxValue => "MaxValue"
  | .minValue => "MinValue"

/-- A decimal with all its places. -/
def decimalText (d : Decimal) : String :=
  let digits := d.mantissa.natAbs
  let whole := toString (digits / 10 ^ d.places)
  let unsigned :=
    if d.places = 0 then whole
    else whole ++ "." ++ String.ofList (decDigits d.places (digits % 10 ^ d.places))
  if d.mantissa < 0 then "-" ++ unsigned else unsigned

/-- The spelling of an operand (R34). -/
def operandText : Operand → String
  | .raw w => "0x" ++ wordText w
  | .fixed d => "fx(" ++ decimalText d ++ ")"
  | .const k => constText k
  | .name n => n

/-- Operands separated by commas (R34). -/
def operandsText : List Operand → String
  | [] => ""
  | [o] => operandText o
  | o :: os => operandText o ++ ", " ++ operandsText os

/-- `MNEMONIC` followed by its operands in port order (R34). -/
def operationText (i : Instr) (os : List Operand) : String :=
  if os.isEmpty then mnemonic i else mnemonic i ++ " " ++ operandsText os

/-- `name = MNEMONIC operands` (R35). -/
def lineText (l : Line) : String :=
  l.name ++ " = " ++ operationText l.op l.operands

end Sys2Proof.Machine
end

