-- ==== Sys2Proof/Safety.lean ====
section
/-! DEFINITION. The terms in which claims speak: the number a word stands for, the result of each operation code as a
function of exact integers, a settled output, and rounding to nearest with ties away from zero. `step` uses none of
this: the formulas here are the other formulation that the rules give beside their pseudocode. -/

namespace Sys2Proof.Safety

open Sys2Proof.Machine

/-- `value(v) = s32(v) / 65536` (R2). -/
def value (v : Word) : Rat :=
  (s32 v : Rat) / 65536

/-- The integer fits a 32-bit signed word. -/
abbrev Fits32 (n : Int) : Prop :=
  -2 ^ 31 ≤ n ∧ n ≤ 2 ^ 31 - 1

/-- The closed form of MUL on the exact product (R56). -/
def mulClosedForm (p : Int) : Word :=
  if 2 ^ 47 ≤ p then 0x7FFFFFFF#32
  else if p < -2 ^ 47 then 0x7FFFFFFF#32
  else if 0 ≤ p then bv32 ((p + 32768) / 65536)
  else bv32 ((p + 32767) / 65536)

/-- The product lies in the range of the check and below the wrapping corner (R56, R59). -/
abbrev RoundsInRange (p : Int) : Prop :=
  -2 ^ 47 ≤ p ∧ p < 2 ^ 47 - 32768

/-- `n` is the integer nearest to `p / 65536`, and of two nearest the one further from zero (R57). -/
abbrev NearestAwayFromZero (p n : Int) : Prop :=
  2 * |65536 * n - p| ≤ 65536 ∧ (2 * |65536 * n - p| = 65536 → |p| < |65536 * n|)

/-- The least integer not below `n / 65536`. -/
def ceilDiv (n : Int) : Int :=
  -((-n) / 65536)

/-- `F(op, a, b, c)` of R11 by code number, over exact integers; `none` under a reserved code (R33). -/
def portFunction (op : Code) (a b c : Word) : Option Word :=
  match op.toNat with
  | 0 => some (bv32 (s32 a))
  | 1 => some (bv32 (s32 a + s32 b))
  | 2 => some (bv32 (s32 a - s32 b))
  | 3 => some (bv32 (-s32 a))
  | 4 => some (mulClosedForm (s32 a * s32 b))
  | 5 => some (bv32 |s32 a|)
  | 6 => some (bv32 (65536 * (s32 a / 65536)))
  | 7 => some (bv32 (65536 * ceilDiv (s32 a)))
  | 8 => some (bv32 (min (s32 a) (s32 b)))
  | 9 => some (bv32 (max (s32 a) (s32 b)))
  | 10 => some (bv32 (min (max (s32 a) (s32 b)) (s32 c)))
  | 11 => some (bv32 (max 0 (min (s32 a) 65536)))
  | 16 => some (bv32 0)
  | 17 => some (bv32 65536)
  | 18 => some (bv32 (-65536))
  | 19 => some (bv32 2147483647)
  | 20 => some (bv32 (-2147483648))
  | _ => none

/-- The output carries the result of the inputs beside it (R11, R85). -/
def Settled (s : State) : Prop :=
  portFunction s.op s.a s.b s.c = some s.y

/-- The two states agree on a port. -/
def SamePort (s t : State) (p : Port) : Prop :=
  s.readPort p = t.readPort p

/-- The `y` of an operation on its operand words, in port order (R31, R35): F of R11 with the words on the ports the
class reads. The zeros stand on ports that are not read and have no influence (R31); a number of words that is not the
class's gives nothing (R34). -/
def resultOfWords (i : Instr) (ws : List Word) : Option Word :=
  match operandClass i, ws with
  | .classN, [] => portFunction (encode i) 0 0 0
  | .classU, [x] => portFunction (encode i) x 0 0
  | .classB, [x, y] => portFunction (encode i) x y 0
  | .classT, [x, y, z] => portFunction (encode i) x y z
  | _, _ => none

/-- The value a line's name stands for under the names bound before it (R35). -/
def lineMeaning (names : Names) (l : Line) : Option Word :=
  match operandWords names l.operands with
  | .ok ws => resultOfWords l.op ws
  | .error _ => none

/-- The names a transcript ends with, each line's name bound to the value it stands for, without any port or step
(R35). -/
def transcriptMeaning : Names → List Line → Option Names
  | names, [] => some names
  | names, l :: ls =>
    match lineMeaning names l with
    | some v => transcriptMeaning (names ++ [(l.name, v)]) ls
    | none => none

/-- Neither line uses the other's name, and their names differ (R35). -/
def Independent (l m : Line) : Prop :=
  l.name ≠ m.name ∧ Operand.name m.name ∉ l.operands ∧ Operand.name l.name ∉ m.operands

end Sys2Proof.Safety
end

