-- ==== Sys2Proof/Certificates/Slice0/Obligations.lean ====
section
/-! DEFINITION. The statements for the provers. A docstring names the rule or section of spec/ a statement formalises,
and, where a clause rests on one of the spec's own decisions or on this model's choice, that decision or log entry.
Integer division by a positive number is the floor. -/

open Sys2Proof Sys2Proof.Machine Sys2Proof.Safety

/-- THE MODEL'S CHOICE, log entry 2: R19 gives no reset value for a port; the model starts every input port at zero and
`y` at zero. -/
def Obligations.ResetPortsHoldTheLoggedValues : Prop :=
  State.reset.op = 0 ∧ State.reset.a = 0 ∧ State.reset.b = 0 ∧ State.reset.c = 0 ∧ State.reset.y = 0

/-- R19, for the inputs the model chose in log entry 2: `y` is the function of R11 from the first moment. -/
def Obligations.ResetIsSettled : Prop :=
  Settled State.reset

/-- R13, R28: the operation performed is the one selected by the present value of `op`. The second clause says the same
of a word of the opcode table's numbering (log entries 4 and 11). -/
def Obligations.StepRunsTheSelectedOperation : Prop :=
  (∀ (s : State) (i : Instr), decode s.op = .ok i → step s = exec i s) ∧
  (∀ (s : State) (nbits w : Nat) (i : Instr), decodeTableWord nbits w = some i →
    step (s.withFetchWord nbits w) = exec i { s with op := encode i })

/-- 30_encoding.md table 2, row by row, and the remark that `op[4]` is 1 for exactly the constant generators among the
defined codes. The codes are decision D2 of the spec. -/
def Obligations.CodesDecodeAsTableTwo : Prop :=
  decode 0b00000#5 = .ok .pass ∧ decode 0b00001#5 = .ok .add ∧ decode 0b00010#5 = .ok .sub ∧
  decode 0b00011#5 = .ok .neg ∧ decode 0b00100#5 = .ok .mul ∧ decode 0b00101#5 = .ok .abs ∧
  decode 0b00110#5 = .ok .floor ∧ decode 0b00111#5 = .ok .ceil ∧ decode 0b01000#5 = .ok .min ∧
  decode 0b01001#5 = .ok .max ∧ decode 0b01010#5 = .ok .clamp ∧ decode 0b01011#5 = .ok .clamp01 ∧
  decode 0b10000#5 = .ok .zero ∧ decode 0b10001#5 = .ok .one ∧ decode 0b10010#5 = .ok .minusone ∧
  decode 0b10011#5 = .ok .maxvalue ∧ decode 0b10100#5 = .ok .minvalue ∧
  (∀ i : Instr, (encode i).getLsbD 4 = true ↔ operandClass i = .classN)

/-- R30: encoding and decoding agree in both directions, on the port and on a word of the opcode table. -/
def Obligations.EncodeAndDecodeAgree : Prop :=
  (∀ i : Instr, decode (encode i) = .ok i ∧ decodeTableWord 8 (encode i).toNat = some i) ∧
  (∀ (op : Code) (i : Instr), decode op = .ok i → op = encode i)

/-- 30_encoding.md section 3, decision D7 of the spec and log entry 5: the model refuses exactly the fifteen reserved
codes, by the code's own value, and nothing else. -/
def Obligations.ExactlyTheReservedCodesAreRefused : Prop :=
  (∀ s : State, step s = .refused (.reservedCode s.op) ↔
    (0x0C ≤ s.op.toNat ∧ s.op.toNat ≤ 0x0F) ∨ (0x15 ≤ s.op.toNat ∧ s.op.toNat ≤ 0x1F)) ∧
  (∀ (s : State) (r : Refusal), step s = .refused r → r = .reservedCode s.op)

/-- R3, R70, R74: every operation completes on every operand, whatever is on the ports, and nothing ever faults. -/
def Obligations.NoOperandValueStopsAnOperation : Prop :=
  (∀ (i : Instr) (s : State), ∃ v : Word, exec i s = .next { s with y := v }) ∧
  (∀ s : State, definedCode s.op = true → ∃ v : Word, step s = .next { s with y := v }) ∧
  (∀ (s : State) (f : Fault), step s ≠ .fault f)

/-- The frame of every operation (R9): the input ports are never driven by the block. -/
def Obligations.OperationsDriveOnlyTheResultPort : Prop :=
  ∀ (i : Instr) (s t : State), exec i s = .next t → t.op = s.op ∧ t.a = s.a ∧ t.b = s.b ∧ t.c = s.c

/-- R40. -/
def Obligations.ZeroGeneratesRawZero : Prop :=
  decode 0x10#5 = .ok .zero ∧
  (∀ s : State, exec .zero s = .next { s with y := 0x00000000#32 }) ∧
  value 0x00000000#32 = 0 ∧
  (∀ x : Word, addResult x 0x00000000#32 = x) ∧
  (∀ x : Word, s32 x < 0 → clamp01Result x = 0x00000000#32)

/-- R41. The clause on CEIL stays below its wrap, which is decision D11 and has its own statement. -/
def Obligations.OneGeneratesTheScaleFactor : Prop :=
  decode 0x11#5 = .ok .one ∧
  (∀ s : State, exec .one s = .next { s with y := 0x00010000#32 }) ∧
  s32 0x00010000#32 = Config.scale ∧ value 0x00010000#32 = 1 ∧
  (∀ x : Word, mulResult x 0x00010000#32 = x) ∧
  (∀ x : Word, u32 x % 65536 ≠ 0 → s32 x ≤ s32 0x7FFF0000#32 →
    s32 (ceilResult x) = s32 (floorResult x) + s32 0x00010000#32) ∧
  (∀ x : Word, 65536 < s32 x → clamp01Result x = 0x00010000#32)

/-- 40_constants_and_pass.md section 1, MINUSONE. The bit pattern is the spec's own derivation from R2 and G4 (log
entry 15, PRESUMED). -/
def Obligations.MinusOneGeneratesRawMinus65536 : Prop :=
  decode 0x12#5 = .ok .minusone ∧
  (∀ s : State, exec .minusone s = .next { s with y := 0xFFFF0000#32 }) ∧
  s32 0xFFFF0000#32 = -65536 ∧ u32 0xFFFF0000#32 = 4294967296 - 65536 ∧ value 0xFFFF0000#32 = -1

/-- 40_constants_and_pass.md section 1, MAXVALUE: the largest raw integer, and what MUL returns on overflow in either
direction. The figure 2147483647 is G1 of the spec (log entry 15, PRESUMED), and the value on negative overflow is
decision D9 (log entry 10). -/
def Obligations.MaxValueGeneratesTheLargestRaw : Prop :=
  decode 0x13#5 = .ok .maxvalue ∧
  (∀ s : State, exec .maxvalue s = .next { s with y := 0x7FFFFFFF#32 }) ∧
  s32 0x7FFFFFFF#32 = 2147483647 ∧ value 0x7FFFFFFF#32 = 32768 - 1 / 65536 ∧
  (∀ x : Word, s32 x ≤ s32 0x7FFFFFFF#32) ∧
  (∀ a b : Word, 2 ^ 47 ≤ s32 a * s32 b ∨ s32 a * s32 b < -2 ^ 47 → mulResult a b = 0x7FFFFFFF#32)

/-- 40_constants_and_pass.md section 1, MINVALUE: the smallest raw integer, without a positive counterpart, and never a
saturation value of MUL. The figure -2147483648 is G1 of the spec (log entry 15, PRESUMED), and the value on negative
overflow is decision D9 (log entry 10). -/
def Obligations.MinValueGeneratesTheSmallestRaw : Prop :=
  decode 0x14#5 = .ok .minvalue ∧
  (∀ s : State, exec .minvalue s = .next { s with y := 0x80000000#32 }) ∧
  s32 0x80000000#32 = -2147483648 ∧ value 0x80000000#32 = -32768 ∧
  (∀ x : Word, s32 0x80000000#32 ≤ s32 x) ∧
  (∀ x : Word, s32 x ≠ -s32 0x80000000#32) ∧
  (∀ a b : Word, 2 ^ 47 ≤ s32 a * s32 b ∨ s32 a * s32 b < -2 ^ 47 → mulResult a b ≠ 0x80000000#32)

/-- R45, with the round trip of a raw integer through the ports. -/
def Obligations.PassDrivesItsOperand : Prop :=
  decode 0x00#5 = .ok .pass ∧
  (∀ s : State, exec .pass s = .next { s with y := s.a }) ∧
  (∀ (s : State) (r b c : Word), ∃ t : State, step (s.present 0x00#5 r b c) = .next t ∧ t.sample = r)

/-- 41_additive.md section 1. The wrap is the source's own; that it is kept is decision D8 of the spec (log entry 10).
Commutativity, associativity and the identity are the spec's own derivation. -/
def Obligations.AddWrapsModulo32Bits : Prop :=
  decode 0x01#5 = .ok .add ∧
  (∀ s : State, exec .add s = .next { s with y := bv32 (u32 s.a + u32 s.b) }) ∧
  (∀ a b : Word, addResult a b = bv32 (u32 a + u32 b) ∧ addResult a b = bv32 (s32 a + s32 b)) ∧
  (∀ a b : Word, Fits32 (s32 a + s32 b) →
    s32 (addResult a b) = s32 a + s32 b ∧ value (addResult a b) = value a + value b) ∧
  (∀ a b : Word, 2 ^ 31 ≤ s32 a + s32 b →
    s32 (addResult a b) = s32 a + s32 b - 2 ^ 32 ∧ s32 (addResult a b) < 0) ∧
  (∀ a b : Word, s32 a + s32 b < -2 ^ 31 →
    s32 (addResult a b) = s32 a + s32 b + 2 ^ 32 ∧ 0 ≤ s32 (addResult a b)) ∧
  (∀ a b : Word, addResult a b = addResult b a) ∧
  (∀ a b c : Word, addResult (addResult a b) c = addResult a (addResult b c)) ∧
  (∀ x : Word, addResult x 0x00000000#32 = x ∧ addResult 0x00000000#32 x = x) ∧
  addResult 0x7FFFFFFF#32 0x00000001#32 = 0x80000000#32 ∧
  addResult 0x80000000#32 0xFFFFFFFF#32 = 0x7FFFFFFF#32 ∧
  addResult 0x80000000#32 0x80000000#32 = 0x00000000#32 ∧
  addResult 0x00010000#32 0x00008000#32 = 0x00018000#32

/-- 41_additive.md section 2. The wrap is the source's own; that it is kept is decision D8 of the spec (log entry 10).
The law with NEG rests on decision D6 at `MinValue` (log entry 6). -/
def Obligations.SubWrapsModulo32Bits : Prop :=
  decode 0x02#5 = .ok .sub ∧
  (∀ s : State, exec .sub s = .next { s with y := bv32 (u32 s.a - u32 s.b) }) ∧
  (∀ a b : Word, subResult a b = bv32 (u32 a - u32 b) ∧ subResult a b = bv32 (s32 a - s32 b)) ∧
  (∀ a b : Word, Fits32 (s32 a - s32 b) →
    s32 (subResult a b) = s32 a - s32 b ∧ value (subResult a b) = value a - value b) ∧
  (∀ a b : Word, 2 ^ 31 ≤ s32 a - s32 b →
    s32 (subResult a b) = s32 a - s32 b - 2 ^ 32 ∧ s32 (subResult a b) < 0) ∧
  (∀ a b : Word, s32 a - s32 b < -2 ^ 31 →
    s32 (subResult a b) = s32 a - s32 b + 2 ^ 32 ∧ 0 ≤ s32 (subResult a b)) ∧
  (∀ x : Word, subResult x x = 0x00000000#32 ∧ subResult x 0x00000000#32 = x) ∧
  (∀ a b : Word, subResult a b = addResult a (negResult b)) ∧
  subResult 0x7FFFFFFF#32 0xFFFFFFFF#32 = 0x80000000#32 ∧
  subResult 0x00000000#32 0x80000000#32 = 0x80000000#32 ∧
  subResult 0x80000000#32 0x00000001#32 = 0x7FFFFFFF#32 ∧
  subResult 0x00010000#32 0x00008000#32 = 0x00008000#32

/-- 41_additive.md section 3. The result at `MinValue` is decision D6 of the spec and no source's (log entry 6). -/
def Obligations.NegIsTheWrappingNegation : Prop :=
  (∀ s : State, exec .neg s = .next { s with y := bv32 (-s32 s.a) }) ∧
  (∀ a : Word, negResult a = bv32 (-s32 a) ∧ negResult a = wrapSub 0x00000000#32 a ∧
    negResult a = wrapAdd (~~~a) 0x00000001#32) ∧
  (∀ a : Word, a ≠ 0x80000000#32 → s32 (negResult a) = -s32 a) ∧
  negResult 0x80000000#32 = 0x80000000#32 ∧
  (∀ a : Word, s32 a < 0 ∧ s32 (negResult a) < 0 ↔ a = 0x80000000#32) ∧
  (∀ x : Word, negResult (negResult x) = x) ∧
  (∀ x : Word, addResult x (negResult x) = 0x00000000#32)

/-- 42_multiply.md section 1, the six steps with the readings (a) to (d) the spec makes of them: the saturation value of
a negative overflow is decision D9 and the cast of the last step decision D10 (log entries 7 and 10). -/
def Obligations.MulCarriesOutTheSixSteps : Prop :=
  ∀ s : State,
    let prod : Int := s32 s.a * s32 s.b
    let upper : BitVec 17 := BitVec.extractLsb 63 47 (bv64 prod)
    let q : Int := if prod < 0 then prod - 1 else prod
    let r : Int := Int.fdiv q 65536 + (if bv64 q &&& 0x8000#64 ≠ 0 then 1 else 0)
    (prod < 0 → upper ≠ 0x1FFFF#17 → exec .mul s = .next { s with y := 0x7FFFFFFF#32 }) ∧
    (prod < 0 → upper = 0x1FFFF#17 → exec .mul s = .next { s with y := bv32 r }) ∧
    (0 ≤ prod → upper ≠ 0x00000#17 → exec .mul s = .next { s with y := 0x7FFFFFFF#32 }) ∧
    (0 ≤ prod → upper = 0x00000#17 → exec .mul s = .next { s with y := bv32 r })

/-- 42_multiply.md section 1 as a datapath of 64-bit vectors: sign-extended operands, a wrapping product, arithmetic
shifts, and the low 32 bits (readings (b), (c), (d); decisions D9 and D10). -/
def Obligations.MulIsASixtyFourBitDatapath : Prop :=
  ∀ a b : Word,
    let p : BitVec 64 := BitVec.signExtend 64 a * BitVec.signExtend 64 b
    let upper : BitVec 64 := BitVec.sshiftRight p 47
    let q : BitVec 64 := if p.msb then p - 1 else p
    let r : BitVec 64 := BitVec.sshiftRight q 16 + BitVec.setWidth 64 (BitVec.extractLsb 15 15 q)
    mulResult a b =
      if p.msb then (if upper = BitVec.allOnes 64 then BitVec.setWidth 32 r else 0x7FFFFFFF#32)
      else (if upper = 0 then BitVec.setWidth 32 r else 0x7FFFFFFF#32)

/-- 00_scope.md section 5: the bounds of the exact product are reached, and the 64-bit product, formed by a wrapping
multiplication of the sign-extended operands or by narrowing, is the exact product; so is the model's `product`. -/
def Obligations.TheProductFitsSixtyFourBits : Prop :=
  (∀ a b : Word,
    -(2 ^ 31 * (2 ^ 31 - 1)) ≤ s32 a * s32 b ∧ s32 a * s32 b ≤ 2 ^ 62 ∧
    (BitVec.signExtend 64 a * BitVec.signExtend 64 b).toInt = s32 a * s32 b ∧
    (bv64 (s32 a * s32 b)).toInt = s32 a * s32 b ∧
    product a b = s32 a * s32 b) ∧
  s32 0x80000000#32 * s32 0x7FFFFFFF#32 = -(2 ^ 31 * (2 ^ 31 - 1)) ∧
  s32 0x80000000#32 * s32 0x80000000#32 = 2 ^ 62

/-- 42_multiply.md section 2: the closed form, for all operands (law P9). It rests on decisions D9 and D10. -/
def Obligations.MulEqualsItsClosedForm : Prop :=
  ∀ a b : Word, mulResult a b = mulClosedForm (s32 a * s32 b)

/-- 42_multiply.md section 3: nearest, ties away from zero, outside saturation and the wrapping corner. -/
def Obligations.MulRoundsToNearestTiesAwayFromZero : Prop :=
  (∀ a b : Word, RoundsInRange (s32 a * s32 b) →
    NearestAwayFromZero (s32 a * s32 b) (s32 (mulResult a b)) ∧
    |value (mulResult a b) - value a * value b| ≤ 1 / 2 ^ 17) ∧
  (∀ a b : Word, RoundsInRange (s32 a * s32 b) → s32 a * s32 b % 65536 = 32768 →
    (0 ≤ s32 a * s32 b → s32 (mulResult a b) = s32 a * s32 b / 65536 + 1) ∧
    (s32 a * s32 b < 0 → s32 (mulResult a b) = s32 a * s32 b / 65536)) ∧
  mulResult 0x00000001#32 0x00008000#32 = 0x00000001#32

/-- 42_multiply.md section 4, properties (i) to (vii). -/
def Obligations.MulHasItsAlgebraicProperties : Prop :=
  (∀ x : Word, mulResult x 0x00010000#32 = x) ∧
  (∀ a b : Word, mulResult a b = mulResult b a) ∧
  (∀ x : Word, mulResult x 0x00000000#32 = 0x00000000#32) ∧
  (∀ a b : Word, a ≠ 0x80000000#32 → RoundsInRange (s32 a * s32 b) → RoundsInRange (s32 (negResult a) * s32 b) →
    mulResult (negResult a) b = negResult (mulResult a b)) ∧
  (∀ a b : Word, 2 ^ 47 < |s32 a * s32 b| →
    mulResult a b = 0x7FFFFFFF#32 ∧ mulResult (negResult a) b = 0x7FFFFFFF#32) ∧
  (∃ a b c : Word, mulResult (mulResult a b) c ≠ mulResult a (mulResult b c)) ∧
  (∀ x : Word, x ≠ 0x80000000#32 → mulResult x 0xFFFF0000#32 = negResult x) ∧
  mulResult 0x80000000#32 0xFFFF0000#32 = 0x7FFFFFFF#32 ∧ negResult 0x80000000#32 = 0x80000000#32

/-- 42_multiply.md section 5, the corner where the rounded result wraps, exactly characterised (law P10). It rests on
decision D10 (log entry 7). -/
def Obligations.MulWrapsExactlyInItsCorner : Prop :=
  (∀ a b : Word, 0 < s32 a * s32 b ∧ mulResult a b = 0x80000000#32 ↔
    2 ^ 47 - 32768 ≤ s32 a * s32 b ∧ s32 a * s32 b ≤ 2 ^ 47 - 1) ∧
  (∀ p : Int, 2 ^ 47 - 32768 ≤ p ∧ p ≤ 2 ^ 47 - 1 →
    upperBits p = 0#17 ∧ p / 65536 = 2 ^ 31 - 1 ∧ shiftAndRound p = 2 ^ 31) ∧
  mulResult 0x7FFF8000#32 0x00010001#32 = 0x80000000#32 ∧
  mulResult 0x80008000#32 0xFFFEFFFF#32 = 0x80000000#32 ∧
  shiftAndRound (-2 ^ 47 - 1) = -2 ^ 31

/-- 10_state.md section 5 and 60_exceptions.md section 1: no comparison with a boundary value tells a saturation. -/
def Obligations.SaturationLeavesNoSignal : Prop :=
  (∀ a b : Word, ¬ (-2 ^ 47 ≤ s32 a * s32 b ∧ s32 a * s32 b < 2 ^ 47) →
    mulResult a b = 0x7FFFFFFF#32 ∧ mulResult a b ≠ 0x80000000#32 ∧ atRangeBoundary (mulResult a b) = true) ∧
  (∃ a b : Word, s32 a * s32 b < 2 ^ 47 - 32768 ∧ 0 < s32 a * s32 b ∧ mulResult a b = 0x7FFFFFFF#32)

/-- 43_compare_shape.md section 1. The branch-free form is G2 of the spec (log entry 15, PRESUMED); the law with NEG
rests on decision D6 at `MinValue` (log entry 6). -/
def Obligations.AbsIsTheWrappingMagnitude : Prop :=
  decode 0x05#5 = .ok .abs ∧
  (∀ s : State, exec .abs s = .next { s with y := if s32 s.a < 0 then wrapSub 0x00000000#32 s.a else s.a }) ∧
  (∀ a : Word, absResult a = (a + a.sshiftRight 31) ^^^ a.sshiftRight 31) ∧
  (∀ a : Word, a ≠ 0x80000000#32 → s32 (absResult a) = |s32 a|) ∧
  (∀ a : Word, s32 (absResult a) < 0 ↔ a = 0x80000000#32) ∧
  absResult 0x80000000#32 = 0x80000000#32 ∧ absResult 0x80000001#32 = 0x7FFFFFFF#32 ∧
  absResult 0x00000000#32 = 0x00000000#32 ∧ absResult 0xFFFFFFFF#32 = 0x00000001#32 ∧
  (∀ x : Word, absResult (absResult x) = absResult x) ∧
  (∀ x : Word, absResult x = absResult (negResult x)) ∧
  absResult 0xFFFE8000#32 = 0x00018000#32

/-- 43_compare_shape.md section 2. That the cleared value is the floor is the spec's own derivation, from G3 (log
entry 15, PRESUMED). -/
def Obligations.FloorClearsTheFraction : Prop :=
  decode 0x06#5 = .ok .floor ∧
  (∀ s : State, exec .floor s = .next { s with y := s.a &&& 0xFFFF0000#32 }) ∧
  (∀ a : Word, floorResult a = (BitVec.extractLsb 31 16 a ++ 0x0000#16 : BitVec 32)) ∧
  (∀ a : Word, value (floorResult a) = ⌊value a⌋ ∧ s32 (floorResult a) = 65536 * (s32 a / 65536)) ∧
  (∀ a : Word, s32 0x80000000#32 ≤ s32 (floorResult a) ∧ s32 (floorResult a) ≤ s32 0x7FFF0000#32 ∧
    s32 (floorResult a) ≤ s32 a) ∧
  floorResult 0xFFFEC000#32 = 0xFFFE0000#32 ∧ floorResult 0xFFFFFFFF#32 = 0xFFFF0000#32 ∧
  (∀ a : Word, u32 a % 65536 = 0 → floorResult a = a) ∧
  floorResult 0x00020000#32 = 0x00020000#32 ∧
  floorResult 0x7FFFFFFF#32 = 0x7FFF0000#32 ∧ floorResult 0x80000000#32 = 0x80000000#32 ∧
  (∀ x : Word, floorResult (floorResult x) = floorResult x) ∧
  floorResult 0x0001C000#32 = 0x00010000#32

/-- 43_compare_shape.md section 3. The wrap above 32767.0 is decision D11 of the spec (log entry 8). -/
def Obligations.CeilAddsOneToAClearedFraction : Prop :=
  (∀ s : State, exec .ceil s = .next { s with y :=
    (if u32 s.a % 65536 ≠ 0 then wrapAdd (s.a &&& 0xFFFF0000#32) 0x00010000#32 else s.a &&& 0xFFFF0000#32) }) ∧
  (∀ a : Word, ¬ (0x7FFF0001 ≤ u32 a ∧ u32 a ≤ 0x7FFFFFFF) →
    value (ceilResult a) = ⌈value a⌉ ∧ s32 a ≤ s32 (ceilResult a)) ∧
  (∀ a : Word, 0x7FFF0001 ≤ u32 a ∧ u32 a ≤ 0x7FFFFFFF → ceilResult a = 0x80000000#32) ∧
  (∀ a : Word, s32 (ceilResult a) < s32 a ↔ 0x7FFF0001 ≤ u32 a ∧ u32 a ≤ 0x7FFFFFFF) ∧
  (∀ a : Word, u32 (ceilResult a) % 65536 = 0) ∧
  (∀ a : Word, u32 a % 65536 = 0 → ceilResult a = a ∧ subResult (ceilResult a) (floorResult a) = 0x00000000#32) ∧
  (∀ a : Word, u32 a % 65536 ≠ 0 → subResult (ceilResult a) (floorResult a) = 0x00010000#32)

/-- 43_compare_shape.md section 4, MIN. The clause on values is the spec's own derivation from R2. -/
def Obligations.MinIsTheSignedMinimum : Prop :=
  decode 0x08#5 = .ok .min ∧
  (∀ s : State, exec .min s = .next { s with y := if s32 s.a < s32 s.b then s.a else s.b }) ∧
  (∀ a b : Word, value (minResult a b) = min (value a) (value b)) ∧
  minResult 0x80000000#32 0x7FFFFFFF#32 = 0x80000000#32 ∧ minResult 0xFFFFFFFF#32 0x00000001#32 = 0xFFFFFFFF#32 ∧
  (∀ a b : Word, minResult a b = minResult b a) ∧
  (∀ x : Word, minResult x x = x ∧ minResult x 0x80000000#32 = 0x80000000#32 ∧ minResult x 0x7FFFFFFF#32 = x) ∧
  (∀ a b : Word, minResult a b = a ∨ minResult a b = b) ∧
  minResult 0xFFFF0000#32 0x00010000#32 = 0xFFFF0000#32

/-- 43_compare_shape.md section 4, MAX. The clause on values and the clauses on the pair of MIN and MAX and its sum are
the spec's own derivations. -/
def Obligations.MaxIsTheSignedMaximum : Prop :=
  decode 0x09#5 = .ok .max ∧
  (∀ s : State, exec .max s = .next { s with y := if s32 s.a > s32 s.b then s.a else s.b }) ∧
  (∀ a b : Word, value (maxResult a b) = max (value a) (value b)) ∧
  maxResult 0x80000000#32 0x7FFFFFFF#32 = 0x7FFFFFFF#32 ∧ maxResult 0xFFFFFFFF#32 0x00000001#32 = 0x00000001#32 ∧
  (∀ a b : Word, maxResult a b = maxResult b a) ∧
  (∀ x : Word, maxResult x x = x ∧ maxResult x 0x7FFFFFFF#32 = 0x7FFFFFFF#32 ∧ maxResult x 0x80000000#32 = x) ∧
  (∀ a b : Word, maxResult a b = a ∨ maxResult a b = b) ∧
  (∀ a b : Word, minResult a b = a ∧ maxResult a b = b ∨ minResult a b = b ∧ maxResult a b = a) ∧
  (∀ a b : Word, addResult (minResult a b) (maxResult a b) = addResult a b) ∧
  maxResult 0xFFFF0000#32 0x00010000#32 = 0x00010000#32

/-- 43_compare_shape.md section 5. That crossed bounds give the formula's value is decision D12 of the spec (log
entry 9). -/
def Obligations.ClampAppliesTheLowerBoundFirst : Prop :=
  (∀ s : State, exec .clamp s = .next { s with y :=
    (if s32 (if s32 s.a > s32 s.b then s.a else s.b) < s32 s.c
      then (if s32 s.a > s32 s.b then s.a else s.b) else s.c) }) ∧
  (∀ a b c : Word, s32 b ≤ s32 c →
    (s32 a < s32 b → clampResult a b c = b) ∧ (s32 a > s32 c → clampResult a b c = c) ∧
    (s32 b ≤ s32 a → s32 a ≤ s32 c → clampResult a b c = a)) ∧
  (∀ a b : Word, clampResult a b b = b) ∧
  (∀ a b c : Word, s32 b > s32 c → clampResult a b c = c) ∧
  (∀ a b c : Word, clampResult a b c = a ∨ clampResult a b c = b ∨ clampResult a b c = c) ∧
  (∀ a : Word, clampResult a 0x80000000#32 0x7FFFFFFF#32 = a)

/-- R66. The equality with CLAMP is the source's own sentence, which the rule quotes. -/
def Obligations.Clamp01LimitsToTheUnitInterval : Prop :=
  decode 0x0B#5 = .ok .clamp01 ∧
  (∀ s : State, exec .clamp01 s = .next { s with y :=
    (if s32 s.a < s32 0x00000000#32 then 0x00000000#32
    else if s32 s.a > s32 0x00010000#32 then 0x00010000#32 else s.a) }) ∧
  (∀ a : Word, clamp01Result a = clampResult a 0x00000000#32 0x00010000#32) ∧
  clamp01Result 0x00000000#32 = 0x00000000#32 ∧ clamp01Result 0x00010000#32 = 0x00010000#32 ∧
  clamp01Result 0xFFFFFFFF#32 = 0x00000000#32 ∧ clamp01Result 0x00010001#32 = 0x00010000#32 ∧
  clamp01Result 0x80000000#32 = 0x00000000#32 ∧ clamp01Result 0x7FFFFFFF#32 = 0x00010000#32 ∧
  (∀ a : Word, a.msb = true → clamp01Result a = 0x00000000#32) ∧
  (∀ a : Word, 0 ≤ s32 (clamp01Result a) ∧ s32 (clamp01Result a) ≤ 65536 ∧
    BitVec.extractLsb 31 17 (clamp01Result a) = 0#15) ∧
  clamp01Result 0xFFFF8000#32 = 0x00000000#32 ∧ clamp01Result 0x00018000#32 = 0x00010000#32 ∧
  clamp01Result 0x00008000#32 = 0x00008000#32

/-- 41_additive.md section 4: when ADD, SUB and NEG are exact, and how a host recognises that one was not. -/
def Obligations.AdditiveOverflowIsRecognisedByTheSigns : Prop :=
  (∀ a b : Word, (value (addResult a b) = value a + value b ↔ Fits32 (s32 a + s32 b)) ∧
    (addOverflowSeen a b (addResult a b) = true ↔ ¬ Fits32 (s32 a + s32 b))) ∧
  (∀ a b : Word, (value (subResult a b) = value a - value b ↔ Fits32 (s32 a - s32 b)) ∧
    (subOverflowSeen a b (subResult a b) = true ↔ ¬ Fits32 (s32 a - s32 b))) ∧
  (∀ a : Word, (value (negResult a) = -value a ↔ a ≠ 0x80000000#32) ∧
    (negOverflowSeen a = true ↔ a = 0x80000000#32))

/-- 43_compare_shape.md section 7: the one comparison of the block is a total order of the patterns. -/
def Obligations.TheComparisonIsATotalOrder : Prop :=
  (∀ x y : Word, s32 x < s32 y ∨ x = y ∨ s32 y < s32 x) ∧
  (∀ x : Word, s32 0x80000000#32 ≤ s32 x ∧ s32 x ≤ s32 0x7FFFFFFF#32) ∧
  (∀ x y : Word, s32 x < s32 y ↔ u32 (x ^^^ 0x80000000#32) < u32 (y ^^^ 0x80000000#32)) ∧
  (∀ a b : Word, s32 a < s32 b ↔ minResult a b = a ∧ a ≠ b)

/-- 30_encoding.md section 2, decision D13 of the spec: ports that the class does not read have no influence on `y`; and
the class column of 30_encoding.md table 2, operation by operation. -/
def Obligations.UnreadPortsHaveNoInfluence : Prop :=
  (∀ (i : Instr) (s t : State), (∀ p ∈ portsRead (operandClass i), SamePort s t p) →
    ∃ v : Word, exec i s = .next { s with y := v } ∧ exec i t = .next { t with y := v }) ∧
  portsRead .classN = [] ∧ portsRead .classU = [.a] ∧ portsRead .classB = [.a, .b] ∧
  portsRead .classT = [.a, .b, .c] ∧
  operandClass .pass = .classU ∧ operandClass .add = .classB ∧ operandClass .sub = .classB ∧
  operandClass .neg = .classU ∧ operandClass .mul = .classB ∧ operandClass .abs = .classU ∧
  operandClass .floor = .classU ∧ operandClass .ceil = .classU ∧ operandClass .min = .classB ∧
  operandClass .max = .classB ∧ operandClass .clamp = .classT ∧ operandClass .clamp01 = .classU ∧
  operandClass .zero = .classN ∧ operandClass .one = .classN ∧ operandClass .minusone = .classN ∧
  operandClass .maxvalue = .classN ∧ operandClass .minvalue = .classN

/-- R9: an evaluation writes nothing but `y`, reads nothing but its input ports, gives the same result when repeated,
and leaves no trace in any later evaluation. -/
def Obligations.EveryEvaluationIsPure : Prop :=
  (∀ s t : State, step s = .next t → t = { s with y := t.y }) ∧
  (∀ s t : State, s.op = t.op → s.a = t.a → s.b = t.b → s.c = t.c → step s = step t) ∧
  (∀ s t : State, step s = .next t → step t = .next t) ∧
  (∀ (s t : State) (op : Code) (a b c : Word), step s = .next t →
    step (t.present op a b c) = step (s.present op a b c))

/-- 10_state.md section 2: `y` is the function F of `(op, a, b, c)`, given by code number over exact integers; F is
undefined under exactly the reserved codes. Clauses of F rest on decisions D2 and D6 to D12 of the spec. -/
def Obligations.StepComputesThePortFunction : Prop :=
  ∀ s : State,
    (∀ v : Word, portFunction s.op s.a s.b s.c = some v → step s = .next { s with y := v }) ∧
    (portFunction s.op s.a s.b s.c = none → step s = .refused (.reservedCode s.op))

/-- 10_state.md section 2 as an invariant: whatever the ports held before, `y` agrees with the inputs after a step. -/
def Obligations.EveryStepLeavesTheOutputSettled : Prop :=
  ∀ s t : State, step s = .next t → Settled t

/-- 30_encoding.md table 3: the expansions give the same `y` as the operation, for all operands. -/
def Obligations.ExpansionsGiveTheSameResult : Prop :=
  (∀ (s : State) (x : Word), ∃ v : Word,
    exec .neg { s with a := x } = .next { s with a := x, y := v } ∧
    exec .sub { s with a := zeroWord, b := x } = .next { s with a := zeroWord, b := x, y := v }) ∧
  (∀ (s : State) (x lo hi : Word), ∃ t v : Word,
    exec .max { s with a := x, b := lo } = .next { s with a := x, b := lo, y := t } ∧
    exec .min { s with a := t, b := hi } = .next { s with a := t, b := hi, y := v } ∧
    exec .clamp { s with a := x, b := lo, c := hi } = .next { s with a := x, b := lo, c := hi, y := v }) ∧
  (∀ (s : State) (x : Word), ∃ v : Word,
    exec .clamp01 { s with a := x } = .next { s with a := x, y := v } ∧
    exec .clamp { s with a := x, b := zeroWord, c := oneWord } =
      .next { s with a := x, b := zeroWord, c := oneWord, y := v })

/-- 30_encoding.md section 5: every mnemonic names its operation, and the two aliases their targets. -/
def Obligations.MnemonicsAndAliasesNameTheirOperations : Prop :=
  (∀ i : Instr, instrOfMnemonic (mnemonic i) = some i) ∧
  instrOfMnemonic "FROMRAW" = some .pass ∧ instrOfMnemonic "NEGATE" = some .neg ∧
  (∀ (m : String) (i : Instr), instrOfMnemonic m = some i →
    m = mnemonic i ∨ (m = "FROMRAW" ∧ i = .pass) ∨ (m = "NEGATE" ∧ i = .neg))

/-- 00_scope.md section 7.1: `fx(d)` is the raw integer `d × 65536` where that is a 32-bit integer, and nothing
elsewhere (log entry 14). -/
def Obligations.FxIsExactOrNothing : Prop :=
  ∀ (d : Decimal) (w : Word), fx d = some w ↔ s32 w * 10 ^ d.places = d.mantissa * 65536

/-- 30_encoding.md section 5: the encoding of a line is its code and its operands on the ports its class reads. -/
def Obligations.LineEncodingHoldsExactlyTheReadPorts : Prop :=
  ∀ (l : Line) (d : Desk) (t : LineCode), lineCode l d = .ok t →
    t.op = encode l.op ∧
    (t.a.isSome = true ↔ Port.a ∈ portsRead (operandClass l.op)) ∧
    (t.b.isSome = true ↔ Port.b ∈ portsRead (operandClass l.op)) ∧
    (t.c.isSome = true ↔ Port.c ∈ portsRead (operandClass l.op)) ∧
    operandWords d.names l.operands = .ok ([t.a, t.b, t.c].filterMap id)

/-- 30_encoding.md section 5: every well-formed transcript runs to its last line, from any state of the block, and binds
its names in order, each to the `y` of its own evaluation: F of R11 on the words its operands stand for under the names
bound before it. That a name is bound once is the model's choice (log entry 12); clauses of F rest on decisions D2 and
D6 to D12 of the spec. -/
def Obligations.WellFormedTranscriptsRunToTheirEnd : Prop :=
  ∀ (ls : List Line) (d : Desk), wellFormedTranscript (d.names.map Prod.fst) ls = true →
    ∃ e : Desk, runTranscript ls d = .next e ∧ transcriptMeaning d.names ls = some e.names ∧
      e.names.map Prod.fst = d.names.map Prod.fst ++ ls.map Line.name

/-- 30_encoding.md section 5: the order of independent lines does not matter to the end state. Two neighbouring lines,
neither of which uses the other's name, may be exchanged anywhere in a transcript, whatever stands before and after
them. -/
def Obligations.IndependentLinesMayBeExchanged : Prop :=
  ∀ (before after : List Line) (l m : Line) (d e : Desk), Independent l m →
    runTranscript (before ++ l :: m :: after) d = .next e →
    ∃ e' : Desk, runTranscript (before ++ m :: l :: after) d = .next e' ∧
      ∀ n : String, e'.names.lookup n = e.names.lookup n

/-- 30_encoding.md section 5: what an operand of a line stands for, form by form, and that the operands of a line are
taken one by one in order. -/
def Obligations.OperandsStandForTheirWords : Prop :=
  (∀ (names : Names) (w : Word), operandWord names (.raw w) = .ok w) ∧
  (∀ names : Names,
    operandWord names (.const .zero) = .ok 0x00000000#32 ∧ operandWord names (.const .one) = .ok 0x00010000#32 ∧
    operandWord names (.const .minusOne) = .ok 0xFFFF0000#32 ∧
    operandWord names (.const .maxValue) = .ok 0x7FFFFFFF#32 ∧
    operandWord names (.const .minValue) = .ok 0x80000000#32) ∧
  (∀ (names : Names) (d : Decimal) (w : Word), operandWord names (.fixed d) = .ok w ↔ fx d = some w) ∧
  (∀ (names : Names) (n : String) (w : Word), operandWord names (.name n) = .ok w ↔ names.lookup n = some w) ∧
  (∀ (names : Names) (os : List Operand) (ws : List Word),
    operandWords names os = .ok ws ↔ List.Forall₂ (fun o w => operandWord names o = .ok w) os ws)
end

