-- ==== Sys2Proof/Laws/Config.lean ====
section
/-! SUPPORT. How the literals of the model stand to the parameters of R5, R6 and R7. -/

namespace Sys2Proof.Config

theorem word_has_width : Word = BitVec width := rfl
theorem width_splits : width = intBits + fracBits := rfl
theorem scale_eq : scale = 2 ^ fracBits := rfl
theorem productWidth_eq : productWidth = 2 * width := rfl
theorem rangeCheckShift_eq : 47 = (width - 1) + fracBits := rfl
theorem roundingBit_eq : 15 = fracBits - 1 := rfl
theorem mulSatValueNeg_eq : mulSatValueNeg = Machine.maxWord := rfl

end Sys2Proof.Config
end

