-- ==== Sys2Proof/Laws/State.lean ====
section
/-! SUPPORT. One lemma per port per update of the state. -/

namespace Sys2Proof.Machine

variable (s : State) (v : Word) (op : Code) (a b c : Word) (nbits w : Nat)

@[simp] theorem driveY_op : (s.driveY v).op = s.op := rfl
@[simp] theorem driveY_a : (s.driveY v).a = s.a := rfl
@[simp] theorem driveY_b : (s.driveY v).b = s.b := rfl
@[simp] theorem driveY_c : (s.driveY v).c = s.c := rfl
@[simp] theorem driveY_y : (s.driveY v).y = v := rfl
@[simp] theorem driveY_driveY (u : Word) : (s.driveY u).driveY v = s.driveY v := rfl
@[simp] theorem driveY_self : s.driveY s.y = s := rfl

@[simp] theorem present_op : (s.present op a b c).op = op := rfl
@[simp] theorem present_a : (s.present op a b c).a = a := rfl
@[simp] theorem present_b : (s.present op a b c).b = b := rfl
@[simp] theorem present_c : (s.present op a b c).c = c := rfl
@[simp] theorem present_y : (s.present op a b c).y = s.y := rfl

@[simp] theorem readPort_a : s.readPort .a = s.a := rfl
@[simp] theorem readPort_b : s.readPort .b = s.b := rfl
@[simp] theorem readPort_c : s.readPort .c = s.c := rfl
@[simp] theorem readPort_driveY (p : Port) : (s.driveY v).readPort p = s.readPort p := by cases p <;> rfl
@[simp] theorem sample_eq : s.sample = s.y := rfl
@[simp] theorem fetch_eq : fetch s = s.op := rfl

@[simp] theorem withFetchWord_op : (s.withFetchWord nbits w).op = tableCode nbits w := rfl
@[simp] theorem withFetchWord_a : (s.withFetchWord nbits w).a = s.a := rfl
@[simp] theorem withFetchWord_b : (s.withFetchWord nbits w).b = s.b := rfl
@[simp] theorem withFetchWord_c : (s.withFetchWord nbits w).c = s.c := rfl
@[simp] theorem withFetchWord_y : (s.withFetchWord nbits w).y = s.y := rfl

end Sys2Proof.Machine
end

