-- ==== Sys2Proof/Laws/Ops.lean ====
section
/-! SUPPORT. The spec lemmas of the shared operations: the integer readings, the narrowing, the wrapping arithmetic
and the signed choice. -/

namespace Sys2Proof.Machine

/-- The range of the signed reading (R2). -/
theorem s32_bounds (v : Word) : -2147483648 ≤ s32 v ∧ s32 v ≤ 2147483647 := by
  unfold s32
  have h1 := BitVec.le_toInt v
  have h2 := BitVec.toInt_lt (x := v)
  norm_num at h1 h2
  omega

/-- A word is the 32 low bits of its signed reading. -/
@[simp] theorem bv32_s32 (v : Word) : bv32 (s32 v) = v :=
  BitVec.ofInt_toInt

/-- A word is the 32 low bits of its unsigned reading. -/
@[simp] theorem bv32_u32 (v : Word) : bv32 (u32 v) = v := by
  simp [bv32, u32, BitVec.ofInt_natCast]

/-- The signed reading decides the word: no two patterns compare equal (R67). -/
theorem s32_inj {x y : Word} : s32 x = s32 y ↔ x = y :=
  BitVec.toInt_inj

/-- Narrowing keeps an integer that fits. -/
theorem s32_bv32_of_fits {n : Int} (h1 : -2147483648 ≤ n) (h2 : n ≤ 2147483647) : s32 (bv32 n) = n := by
  unfold s32 bv32
  rw [BitVec.toInt_ofInt]
  simp only [Int.bmod]
  split <;> omega

/-- Narrowing depends on the integer modulo 2^32 alone. -/
theorem bv32_eq_iff (m n : Int) : bv32 m = bv32 n ↔ m % 4294967296 = n % 4294967296 := by
  unfold bv32
  rw [← BitVec.toInt_inj, BitVec.toInt_ofInt, BitVec.toInt_ofInt]
  simp only [Int.bmod]
  constructor
  · intro h; split at h <;> split at h <;> omega
  · intro h; simp [h]

/-- The two readings of a word agree modulo 2^32. -/
theorem u32_emod (v : Word) : u32 v = s32 v % 4294967296 := by
  have h := (bv32_eq_iff (u32 v) (s32 v)).1 (by simp)
  have hb : 0 ≤ u32 v ∧ u32 v < 4294967296 := by
    unfold u32
    have := v.isLt
    omega
  omega

/-- The only overflow policy of this hardware (R7). -/
@[simp] theorem narrow_eq (p : Config.Overflow) (n : Int) : narrow p n = bv32 n := by cases p; rfl

/-- The wrapping sum, on the signed readings. -/
theorem wrapAdd_eq (x y : Word) : wrapAdd x y = bv32 (s32 x + s32 y) := by
  unfold wrapAdd
  rw [bv32_eq_iff, u32_emod, u32_emod]
  omega

/-- The wrapping difference, on the signed readings. -/
theorem wrapSub_eq (x y : Word) : wrapSub x y = bv32 (s32 x - s32 y) := by
  unfold wrapSub
  rw [bv32_eq_iff, u32_emod, u32_emod]
  omega

/-- The signed choice of the smaller is the minimum of the signed readings. -/
theorem s32_signedMin (x y : Word) : s32 (signedMin x y) = min (s32 x) (s32 y) := by
  unfold signedMin
  split <;> omega

/-- The signed choice of the larger is the maximum of the signed readings. -/
theorem s32_signedMax (x y : Word) : s32 (signedMax x y) = max (s32 x) (s32 y) := by
  unfold signedMax
  split <;> omega

end Sys2Proof.Machine
end

