-- ==== Sys2Proof/Laws/Exec.lean ====
section
/-! SUPPORT. What each operation answers, once, and what a step can do. -/

namespace Sys2Proof.Machine

variable (s : State)

@[simp] theorem exec_pass : exec .pass s = .next (s.driveY (passResult s.a)) := rfl
@[simp] theorem exec_add : exec .add s = .next (s.driveY (addResult s.a s.b)) := rfl
@[simp] theorem exec_sub : exec .sub s = .next (s.driveY (subResult s.a s.b)) := rfl
@[simp] theorem exec_neg : exec .neg s = .next (s.driveY (negResult s.a)) := rfl
@[simp] theorem exec_mul : exec .mul s = .next (s.driveY (mulResult s.a s.b)) := rfl
@[simp] theorem exec_abs : exec .abs s = .next (s.driveY (absResult s.a)) := rfl
@[simp] theorem exec_floor : exec .floor s = .next (s.driveY (floorResult s.a)) := rfl
@[simp] theorem exec_ceil : exec .ceil s = .next (s.driveY (ceilResult s.a)) := rfl
@[simp] theorem exec_min : exec .min s = .next (s.driveY (minResult s.a s.b)) := rfl
@[simp] theorem exec_max : exec .max s = .next (s.driveY (maxResult s.a s.b)) := rfl
@[simp] theorem exec_clamp : exec .clamp s = .next (s.driveY (clampResult s.a s.b s.c)) := rfl
@[simp] theorem exec_clamp01 : exec .clamp01 s = .next (s.driveY (clamp01Result s.a)) := rfl
@[simp] theorem exec_zero : exec .zero s = .next (s.driveY zeroWord) := rfl
@[simp] theorem exec_one : exec .one s = .next (s.driveY oneWord) := rfl
@[simp] theorem exec_minusone : exec .minusone s = .next (s.driveY minusOneWord) := rfl
@[simp] theorem exec_maxvalue : exec .maxvalue s = .next (s.driveY maxWord) := rfl
@[simp] theorem exec_minvalue : exec .minvalue s = .next (s.driveY minWord) := rfl

/-- Decoding, once: a code either is the code of the operation it selects, or is rejected as itself. -/
theorem decode_cases (op : Code) :
    (∃ i, decode op = .ok i ∧ op = encode i) ∨ (decode op = .error (.reserved op) ∧ definedCode op = false) := by
  have h : ∀ k : Fin 32, (∃ r ∈ operationTable, decode (BitVec.ofFin k) = .ok r.2 ∧ BitVec.ofFin k = encode r.2) ∨
      (decode (BitVec.ofFin k) = .error (.reserved (BitVec.ofFin k)) ∧ definedCode (BitVec.ofFin k) = false) := by
    decide
  rcases h op.toFin with ⟨r, -, h1, h2⟩ | h'
  · exact .inl ⟨r.2, h1, h2⟩
  · exact .inr h'

/-- A step runs the operation that the code decodes to. -/
theorem step_of_decode {s : State} {i : Instr} (h : decode s.op = .ok i) : step s = exec i s := by
  simp [step, h]

/-- Every step, once: it drives `y` by the selected operation, or refuses a reserved code. -/
theorem step_cases (s : State) :
    (∃ i v, decode s.op = .ok i ∧ exec i s = .next (s.driveY v) ∧ step s = .next (s.driveY v)) ∨
      (definedCode s.op = false ∧ step s = .refused (.reservedCode s.op)) := by
  rcases decode_cases s.op with ⟨i, hd, -⟩ | ⟨hd, hr⟩
  · left
    have hs := step_of_decode hd
    cases i <;> exact ⟨_, _, hd, rfl, hs⟩
  · right
    simp [step, hd, hr, refuseCode]

end Sys2Proof.Machine
end

