-- ==== Sys2Proof/Laws/Multiply.lean ====
section
/-! SUPPORT. The spec lemmas of MUL's shared steps: the range check and the rounding shift on exact integers. -/

namespace Sys2Proof.Machine

/-- The bounds of the exact product (R6). -/
theorem product_bounds (a b : Word) : -4611686016279904256 ≤ product a b ∧ product a b ≤ 4611686018427387904 := by
  obtain ⟨ha1, ha2⟩ := s32_bounds a
  obtain ⟨hb1, hb2⟩ := s32_bounds b
  unfold product
  constructor
  · rcases le_total 0 (s32 a) with h | h
    · nlinarith
    · rcases le_total 0 (s32 b) with h' | h' <;> nlinarith
  · rcases le_total 0 (s32 a) with h | h
    · rcases le_total 0 (s32 b) with h' | h' <;> nlinarith
    · nlinarith

/-- The 17 top bits of the 64-bit product, as a number. -/
theorem upperBits_toNat (p : Int) : ((upperBits p).toNat : Int) = p / 140737488355328 % 131072 := by
  unfold upperBits bv64
  simp only [BitVec.extractLsb, BitVec.extractLsb'_toNat, BitVec.toNat_ofInt, Nat.shiftRight_eq_div_pow]
  norm_num
  omega

/-- The check of a negative product passes from -2^47 up (R56). -/
theorem upperBits_allOnes_iff {p : Int} (h1 : -9223372036854775808 ≤ p) (h2 : p < 0) :
    upperBits p = 0x1FFFF#17 ↔ -140737488355328 ≤ p := by
  have h := upperBits_toNat p
  rw [← BitVec.toNat_inj]
  norm_num
  omega

/-- The check of a non-negative product passes below 2^47 (R56). -/
theorem upperBits_zero_iff {p : Int} (h1 : 0 ≤ p) (h2 : p < 9223372036854775808) :
    upperBits p = 0#17 ↔ p < 140737488355328 := by
  have h := upperBits_toNat p
  rw [← BitVec.toNat_inj]
  norm_num
  omega

/-- Bit 15 of an integer's 64 low bits. -/
theorem bit15_iff (q : Int) : (bv64 q).getLsbD 15 = true ↔ 32768 ≤ q % 65536 := by
  have e : ((bv64 q).toNat : Int) = q % 18446744073709551616 := by
    unfold bv64
    rw [BitVec.toNat_ofInt]
    norm_num
    omega
  rw [BitVec.getLsbD, Nat.testBit_eq_decide_div_mod_eq]
  simp only [decide_eq_true_eq]
  omega

/-- Shifting and adding bit 15 is rounding half up (R56). -/
theorem shiftAndRound_eq (q : Int) : shiftAndRound q = (q + 32768) / 65536 := by
  unfold shiftAndRound
  have h := bit15_iff q
  split <;> rename_i hb
  · have := h.1 hb
    omega
  · have : ¬ 32768 ≤ q % 65536 := fun h' => hb (h.2 h')
    omega

end Sys2Proof.Machine
end

