-- ==== Sys2Proof/Laws/PerInstr.lean ====
section
/-! SUPPORT. The per-instruction family Encoding: an operation's code is defined, decodes to it, and is spelled by a
mnemonic that is read back to it. -/

namespace Sys2Proof.Laws.Encoding

open Sys2Proof.Machine

/-- What holds of each operation as syntax (R30, R34). -/
def Statement (i : Instr) : Prop :=
  definedCode (encode i) = true ∧ decode (encode i) = .ok i ∧ instrOfMnemonic (mnemonic i) = some i

theorem pass : Statement .pass := by unfold Statement; decide
theorem add : Statement .add := by unfold Statement; decide
theorem sub : Statement .sub := by unfold Statement; decide
theorem neg : Statement .neg := by unfold Statement; decide
theorem mul : Statement .mul := by unfold Statement; decide
theorem abs : Statement .abs := by unfold Statement; decide
theorem floor : Statement .floor := by unfold Statement; decide
theorem ceil : Statement .ceil := by unfold Statement; decide
theorem min : Statement .min := by unfold Statement; decide
theorem max : Statement .max := by unfold Statement; decide
theorem clamp : Statement .clamp := by unfold Statement; decide
theorem clamp01 : Statement .clamp01 := by unfold Statement; decide
theorem zero : Statement .zero := by unfold Statement; decide
theorem one : Statement .one := by unfold Statement; decide
theorem minusone : Statement .minusone := by unfold Statement; decide
theorem maxvalue : Statement .maxvalue := by unfold Statement; decide
theorem minvalue : Statement .minvalue := by unfold Statement; decide

end Sys2Proof.Laws.Encoding
end

