-- ==== Sys2Proof/Laws/Transcript.lean ====
section
/-! SUPPORT. The spec lemmas of the transcript's operations: what presenting operands can do, that it depends on the
names alone, and that a line answers with one more name. -/

namespace Sys2Proof.Machine

/-- Presenting operands succeeds exactly when there is one per port the class reads. -/
theorem presentOperands_isSome (k : OperandClass) (op : Code) (ws : List Word) (s : State) :
    (presentOperands k op ws s).isSome = true ↔ ws.length = (portsRead k).length := by
  cases k <;> rcases ws with _ | ⟨x, _ | ⟨y, _ | ⟨z, _ | ⟨u, us⟩⟩⟩⟩ <;> simp [presentOperands, portsRead]

/-- What presenting operands does: the code is driven, and the ports read depend on the operands alone. -/
theorem presentOperands_spec {k : OperandClass} {op : Code} {ws : List Word} {s t : State}
    (h : presentOperands k op ws s = some t) :
    t.op = op ∧ ∀ s' : State, ∃ t', presentOperands k op ws s' = some t' ∧ t'.op = op ∧
      ∀ p ∈ portsRead k, t'.readPort p = t.readPort p := by
  cases k <;> rcases ws with _ | ⟨x, _ | ⟨y, _ | ⟨z, _ | ⟨u, us⟩⟩⟩⟩ <;>
    simp [presentOperands] at h <;> subst h <;> refine ⟨rfl, fun s' => ⟨_, rfl, rfl, ?_⟩⟩ <;> simp [portsRead]

/-- An operand's value depends on the lookups of the name it is, if it is one. -/
theorem operandWord_congr {m n : Names} {o : Operand} (h : ∀ x, o = .name x → m.lookup x = n.lookup x) :
    operandWord m o = operandWord n o := by
  cases o with
  | name x => simp only [operandWord, h x rfl]
  | _ => rfl

/-- The operands' values depend on the lookups of the names among them. -/
theorem operandWords_congr {m n : Names} {os : List Operand} (h : ∀ x, .name x ∈ os → m.lookup x = n.lookup x) :
    operandWords m os = operandWords n os := by
  induction os with
  | nil => rfl
  | cons o os ih =>
    have h1 : operandWord m o = operandWord n o := operandWord_congr fun x hx => h x (by simp [hx])
    have h2 := ih fun x hx => h x (by simp [hx])
    simp only [operandWords, h1, h2]

/-- Well-formed operands have values. -/
theorem operandWords_of_wellFormed {names : Names} {os : List Operand}
    (h : os.all (wellFormedOperand (names.map Prod.fst)) = true) :
    ∃ ws, operandWords names os = .ok ws ∧ ws.length = os.length := by
  induction os with
  | nil => exact ⟨[], rfl, rfl⟩
  | cons o os ih =>
    simp only [List.all_cons, Bool.and_eq_true] at h
    obtain ⟨ws, hws, hl⟩ := ih h.2
    have ho : ∃ w, operandWord names o = .ok w := by
      have h1 := h.1
      cases o with
      | raw w => exact ⟨w, rfl⟩
      | const k => exact ⟨_, rfl⟩
      | fixed d =>
        obtain ⟨w, hw⟩ := Option.isSome_iff_exists.1 (show (fx d).isSome = true from h1)
        exact ⟨w, by simp [operandWord, hw]⟩
      | name n =>
        have hm : n ∈ names.map Prod.fst := by simpa [wellFormedOperand] using h1
        cases hn : names.lookup n with
        | some w => exact ⟨w, by simp [operandWord, hn]⟩
        | none =>
          rw [List.lookup_eq_none_iff] at hn
          obtain ⟨p, hp, rfl⟩ := List.mem_map.1 hm
          exact absurd (hn p hp) (by simp)
    obtain ⟨w, hw⟩ := ho
    exact ⟨w :: ws, by simp [operandWords, hw, hws], by simp [hl]⟩

/-- What a line that is evaluated does: its name was free, its operands were presented, and the host keeps one more
name. -/
theorem runLine_cases {l : Line} {d e : Desk} (h : runLine l d = .next e) :
    d.names.lookup l.name = none ∧ ∃ ws s t, operandWords d.names l.operands = .ok ws ∧
      presentOperands (operandClass l.op) (encode l.op) ws d.block = some s ∧ step s = .next t ∧
      e = keepResult l d t := by
  unfold runLine presentLine at h
  split at h
  · cases h
  · rename_i hn
    cases hw : operandWords d.names l.operands with
    | error r => simp [hw] at h
    | ok ws =>
      simp only [hw] at h
      cases hp : presentOperands (operandClass l.op) (encode l.op) ws d.block with
      | none => simp [hp] at h
      | some s =>
        simp only [hp] at h
        cases hs : step s with
        | next t =>
          simp only [hs, Host.Outcome.next.injEq] at h
          exact ⟨Option.not_isSome_iff_eq_none.1 hn, ws, s, t, rfl, hp, hs, h.symm⟩
        | fault f => simp [hs] at h
        | refused r => simp [hs] at h

/-- A transcript runs a first part and then the rest. -/
theorem runTranscript_append (xs ys : List Line) (d e : Desk) :
    runTranscript (xs ++ ys) d = .next e ↔ ∃ m, runTranscript xs d = .next m ∧ runTranscript ys m = .next e := by
  induction xs generalizing d with
  | nil => simp [runTranscript]
  | cons l ls ih =>
    simp only [List.cons_append, runTranscript]
    cases runLine l d with
    | next m => exact ih m
    | fault f => cases f
    | refused r => simp

/-- Binding one name leaves every other lookup as it was. -/
theorem lookup_bind_other {n x : String} (names : Names) (w : Word) (h : x ≠ n) :
    (names ++ [(n, w)]).lookup x = names.lookup x := by
  rw [List.lookup_append]
  cases names.lookup x <;> simp [List.lookup, show (x == n) = false by simpa using h]

end Sys2Proof.Machine
end

