-- ==== Sys2Proof/Tests/Slice0.lean ====
section
/-! SUPPORT. Tests of one step each, with expected results from spec/95_test_vectors.md (the vector's id stands beside
each) or from the rule named; the well-formedness smoke tests; and a witness for the hypotheses of each statement of
Obligations.lean. -/

namespace Sys2Proof.Tests

open Sys2Proof Sys2Proof.Machine Sys2Proof.Safety

/-- The sampled result of one evaluation of a tuple, if it is evaluated. -/
def evaluate (op : Code) (a b c : Word) : Option Word :=
  match step (State.reset.present op a b c) with
  | .next t => some t.sample
  | .fault _ => none
  | .refused _ => none

/-- Whether a line is evaluated, and the value its name then has. -/
def lineValue (l : Line) (d : Desk) : Option Word :=
  match runLine l d with
  | .next e => e.names.lookup l.name
  | .fault _ => none
  | .refused _ => none

/-- Why a line is not evaluated. -/
def lineRefusal (l : Line) (d : Desk) : Option LineRefusal :=
  match runLine l d with
  | .next _ => none
  | .fault _ => none
  | .refused r => some r

/-- The start state of transcript T1: A = 2.0, B = 5.0, t = 0.25. -/
def deskT1 : Desk :=
  { block := State.reset, names := [("A", 0x00020000#32), ("B", 0x00050000#32), ("t", 0x00004000#32)] }

/-- The lines of transcript T1. -/
def linesT1 : List Line :=
  [ ⟨"d", .sub, [.name "B", .name "A"]⟩,
    ⟨"m", .mul, [.name "d", .name "t"]⟩,
    ⟨"r", .add, [.name "A", .name "m"]⟩ ]

/-! ## Decoding: words written out from 30_encoding.md table 2 -/

theorem test_decode_pass : decode 0b00000#5 = .ok .pass := rfl
theorem test_decode_add : decode 0b00001#5 = .ok .add := rfl
theorem test_decode_sub : decode 0b00010#5 = .ok .sub := rfl
theorem test_decode_neg : decode 0b00011#5 = .ok .neg := rfl
theorem test_decode_mul : decode 0b00100#5 = .ok .mul := rfl
theorem test_decode_abs : decode 0b00101#5 = .ok .abs := rfl
theorem test_decode_floor : decode 0b00110#5 = .ok .floor := rfl
theorem test_decode_ceil : decode 0b00111#5 = .ok .ceil := rfl
theorem test_decode_min : decode 0b01000#5 = .ok .min := rfl
theorem test_decode_max : decode 0b01001#5 = .ok .max := rfl
theorem test_decode_clamp : decode 0b01010#5 = .ok .clamp := rfl
theorem test_decode_clamp01 : decode 0b01011#5 = .ok .clamp01 := rfl
theorem test_decode_zero : decode 0b10000#5 = .ok .zero := rfl
theorem test_decode_one : decode 0b10001#5 = .ok .one := rfl
theorem test_decode_minusone : decode 0b10010#5 = .ok .minusone := rfl
theorem test_decode_maxvalue : decode 0b10011#5 = .ok .maxvalue := rfl
theorem test_decode_minvalue : decode 0b10100#5 = .ok .minvalue := rfl

/-- D9, D12, D13, D23: the ends of the two reserved groups. -/
theorem test_decode_reserved :
    decode 0x0C#5 = .error (.reserved 0x0C#5) ∧ decode 0x0F#5 = .error (.reserved 0x0F#5) ∧
      decode 0x15#5 = .error (.reserved 0x15#5) ∧ decode 0x1F#5 = .error (.reserved 0x1F#5) :=
  ⟨rfl, rfl, rfl, rfl⟩

theorem test_table_has_no_code_twice :
    List.Pairwise (fun r q => r.1 ≠ q.1) operationTable := by decide

/-- The opcode table's mask is 0x1F: the port has no wire for bits 7 to 5. -/
theorem test_table_word : decodeTableWord 8 0x14 = some .minvalue ∧ decodeTableWord 8 0x1F = none := by decide

theorem test_fetch_word : step (State.reset.withFetchWord 8 0x13) =
    .next { State.reset with op := 0x13#5, y := 0x7FFFFFFF#32 } := rfl

/-! ## Well-formedness: an ill-formed term for each check, refused -/

theorem test_illformed_code_low : definedCode 0x0C#5 = false ∧ definedCode 0x0F#5 = false := by decide
theorem test_illformed_code_high : definedCode 0x15#5 = false ∧ definedCode 0x1F#5 = false := by decide
theorem test_wellformed_code_ends : definedCode 0x0B#5 = true ∧ definedCode 0x10#5 = true ∧
    definedCode 0x14#5 = true := by decide
theorem test_illformed_line_name_bound_twice :
    wellFormedLine ["A"] ⟨"A", .zero, []⟩ = false ∧
      lineRefusal ⟨"A", .zero, []⟩ deskT1 = some (.nameBoundTwice "A") := by decide
theorem test_illformed_line_operand_count :
    wellFormedLine [] ⟨"x", .add, [.const .one]⟩ = false ∧
      lineRefusal ⟨"x", .add, [.const .one]⟩ deskT1 = some (.wrongOperandCount .add) := by decide
theorem test_illformed_line_unbound_name :
    wellFormedLine ["A"] ⟨"x", .neg, [.name "Q"]⟩ = false ∧
      lineRefusal ⟨"x", .neg, [.name "Q"]⟩ deskT1 = some (.unboundName "Q") := by decide
theorem test_illformed_line_inexact_decimal :
    wellFormedLine [] ⟨"x", .neg, [.fixed ⟨1, 1⟩]⟩ = false ∧
      lineRefusal ⟨"x", .neg, [.fixed ⟨1, 1⟩]⟩ deskT1 = some (.inexactDecimal ⟨1, 1⟩) := by decide
theorem test_wellformed_t1 : wellFormedTranscript ["A", "B", "t"] linesT1 = true := by decide

/-! ## One step per operation -/

theorem test_pass : evaluate 0x00#5 0xCAFEF00D#32 0x00000001#32 0x00000002#32 = some 0xCAFEF00D#32 := by decide -- D6
theorem test_add_wraps : evaluate 0x01#5 0x7FFFFFFF#32 0x00000001#32 0#32 = some 0x80000000#32 := by decide -- A2
theorem test_add_carries : evaluate 0x01#5 0x00018000#32 0xFFFDC000#32 0#32 = some 0xFFFF4000#32 := by decide -- A7
theorem test_sub_order : evaluate 0x02#5 0x00018000#32 0xFFFDC000#32 0#32 = some 0x0003C000#32 := by decide -- A7
theorem test_sub_wraps : evaluate 0x02#5 0x00000000#32 0x80000000#32 0#32 = some 0x80000000#32 := by decide -- A12
theorem test_neg : evaluate 0x03#5 0x7FFFFFFF#32 0#32 0#32 = some 0x80000001#32 := by decide -- N5
theorem test_neg_minvalue : evaluate 0x03#5 0x80000000#32 0#32 0#32 = some 0x80000000#32 := by decide -- N4
theorem test_mul_negative_tie : evaluate 0x04#5 0xFFFFFFFD#32 0x00008000#32 0#32 = some 0xFFFFFFFE#32 := by decide -- M19
theorem test_mul_negative_rounds : evaluate 0x04#5 0x00012345#32 0xFFFEDCBB#32 0#32 = some 0xFFFEB49A#32 := by decide -- M28
theorem test_abs : evaluate 0x05#5 0xFFFFFFFF#32 0xDEADBEEF#32 0x12345678#32 = some 0x00000001#32 := by decide -- D1
theorem test_abs_minvalue : evaluate 0x05#5 0x80000000#32 0#32 0#32 = some 0x80000000#32 := by decide -- H4
theorem test_floor : evaluate 0x06#5 0xFFFEC000#32 0#32 0#32 = some 0xFFFE0000#32 := by decide -- F2
theorem test_floor_least : evaluate 0x06#5 0x8000FFFF#32 0#32 0#32 = some 0x80000000#32 := by decide -- F9
theorem test_ceil : evaluate 0x07#5 0xFFFEC000#32 0#32 0#32 = some 0xFFFF0000#32 := by decide -- E2
theorem test_ceil_wraps : evaluate 0x07#5 0x7FFF0001#32 0#32 0#32 = some 0x80000000#32 := by decide -- E7
theorem test_min_signed : evaluate 0x08#5 0xFFFFFFFF#32 0x00000001#32 0#32 = some 0xFFFFFFFF#32 := by decide -- X2
theorem test_max_signed : evaluate 0x09#5 0xFFFFFFFF#32 0x00000001#32 0#32 = some 0x00000001#32 := by decide -- X2
theorem test_clamp : evaluate 0x0A#5 0xFFFB0000#32 0xFFFF0000#32 0x00010000#32 = some 0xFFFF0000#32 := by decide -- K5
theorem test_clamp_crossed : evaluate 0x0A#5 0x00008000#32 0x00010000#32 0xFFFF0000#32 = some 0xFFFF0000#32 := by decide -- K8
theorem test_clamp01_above : evaluate 0x0B#5 0x00010001#32 0#32 0#32 = some 0x00010000#32 := by decide -- Q6
theorem test_clamp01_below : evaluate 0x0B#5 0xFFFF8000#32 0#32 0#32 = some 0x00000000#32 := by decide -- Q1
theorem test_zero : evaluate 0x10#5 0xAAAAAAAA#32 0x55555555#32 0xFFFFFFFF#32 = some 0x00000000#32 := by decide -- Z1
theorem test_one : evaluate 0x11#5 0xAAAAAAAA#32 0x55555555#32 0xFFFFFFFF#32 = some 0x00010000#32 := by decide -- D4
theorem test_minusone : evaluate 0x12#5 0#32 0#32 0#32 = some 0xFFFF0000#32 := by decide -- Z3
theorem test_maxvalue : evaluate 0x13#5 0#32 0#32 0#32 = some 0x7FFFFFFF#32 := by decide -- Z4
theorem test_minvalue : evaluate 0x14#5 0#32 0#32 0#32 = some 0x80000000#32 := by decide -- D5
theorem test_reserved_refused : step (State.reset.present 0x0E#5 1#32 2#32 3#32) = .refused (.reservedCode 0x0E#5) := rfl -- D11

/-! ## The text and the encoding of a transcript's line -/

/-- T1 line 1. -/
theorem test_line_value : lineValue ⟨"d", .sub, [.name "B", .name "A"]⟩ deskT1 = some 0x00030000#32 := by decide
/-- T1 line 1, the encoding column. -/
theorem test_line_code : (match lineCode ⟨"d", .sub, [.name "B", .name "A"]⟩ deskT1 with
    | .ok t => lineCodeText t
    | .error _ => "") = "(00010, 00050000, 00020000, -)" := by decide
/-- T1 line 1, the operation column. -/
theorem test_line_text : lineText ⟨"d", .sub, [.name "B", .name "A"]⟩ = "d = SUB B, A" := by decide
/-- The spellings of 30_encoding.md section 5. -/
theorem test_operand_text : operationText .clamp [.raw 0x00018000#32, .fixed ⟨-15, 1⟩, .const .maxValue] =
    "CLAMP 0x00018000, fx(-1.5), MaxValue" := by decide
/-- 00_scope.md section 7.1: fx(1.5) is 0x00018000; 95_test_vectors.md S8: fx(-1.25) is 0xFFFEC000. -/
theorem test_fx : fx ⟨15, 1⟩ = some 0x00018000#32 ∧ fx ⟨-125, 2⟩ = some 0xFFFEC000#32 ∧ fx ⟨32768, 0⟩ = none ∧
    fx ⟨-32768, 0⟩ = some 0x80000000#32 := by decide
/-- 30_encoding.md table 3. -/
theorem test_aliases : instrOfMnemonic "FROMRAW" = some .pass ∧ instrOfMnemonic "NEGATE" = some .neg ∧
    instrOfMnemonic "DIV" = none := by decide

/-! ## Relations among the constants, 40_constants_and_pass.md section 1 -/

theorem test_constant_relations :
    negResult oneWord = minusOneWord ∧ negResult minusOneWord = oneWord ∧ addResult oneWord minusOneWord = zeroWord ∧
      addResult maxWord 1#32 = minWord ∧ subResult minWord 1#32 = maxWord ∧
      mulResult minusOneWord minusOneWord = oneWord ∧ absResult minusOneWord = oneWord := by decide

/-! ## Witnesses: states and operands that meet the hypotheses of each statement -/

theorem witness_StepRunsTheSelectedOperation :
    decode State.reset.op = .ok .pass ∧ decodeTableWord 8 0x01 = some .add ∧ decodeTableWord 8 0x14 = some .minvalue :=
  ⟨rfl, rfl, rfl⟩

theorem witness_EncodeAndDecodeAgree : decode 0x0B#5 = .ok .clamp01 := rfl

theorem witness_ExactlyTheReservedCodesAreRefused :
    (∀ op ∈ [0x0C#5, 0x0F#5, 0x15#5, 0x1F#5],
      step (State.reset.present op 0#32 0#32 0#32) = .refused (.reservedCode op)) ∧
    (∀ op ∈ [0x0B#5, 0x10#5, 0x14#5], ∃ t, step (State.reset.present op 0#32 0#32 0#32) = .next t) := by
  constructor
  · intro op h
    fin_cases h <;> rfl
  · intro op h
    fin_cases h <;> exact ⟨_, rfl⟩

theorem witness_NoOperandValueStopsAnOperation : definedCode State.reset.op = true := by decide

theorem witness_OperationsDriveOnlyTheResultPort :
    exec .add ⟨1#5, 1#32, 2#32, 0#32, 0#32⟩ = .next ⟨1#5, 1#32, 2#32, 0#32, 3#32⟩ := rfl

theorem witness_ZeroGeneratesRawZero : s32 0xFFFFFFFF#32 < 0 ∧ s32 0x80000000#32 < 0 := by decide

theorem witness_OneGeneratesTheScaleFactor :
    (u32 0x7FFEFFFF#32 % 65536 ≠ 0 ∧ s32 0x7FFEFFFF#32 ≤ s32 0x7FFF0000#32) ∧ 65536 < s32 0x00010001#32 := by decide

theorem witness_MaxValueGeneratesTheLargestRaw :
    2 ^ 47 ≤ s32 0x80000000#32 * s32 0xFFFF0000#32 ∧ s32 0x8000FFFE#32 * s32 0x00010002#32 < -2 ^ 47 := by decide

theorem witness_MinValueGeneratesTheSmallestRaw :
    2 ^ 47 ≤ s32 0x01000000#32 * s32 0x00800000#32 ∧ s32 0x01000000#32 * s32 0xFF7FFFFF#32 < -2 ^ 47 := by decide

theorem witness_AddWrapsModulo32Bits :
    Fits32 (s32 0x7FFFFFFF#32 + s32 0x00000000#32) ∧ Fits32 (s32 0x80000000#32 + s32 0x00000000#32) ∧
      2 ^ 31 ≤ s32 0x7FFFFFFF#32 + s32 0x00000001#32 ∧ s32 0x80000000#32 + s32 0xFFFFFFFF#32 < -2 ^ 31 := by decide

theorem witness_SubWrapsModulo32Bits :
    Fits32 (s32 0x80000000#32 - s32 0x80000000#32) ∧ 2 ^ 31 ≤ s32 0x00000000#32 - s32 0x80000000#32 ∧
      s32 0x80000000#32 - s32 0x00000001#32 < -2 ^ 31 := by decide

theorem witness_NegIsTheWrappingNegation : (0x80000001#32 : Word) ≠ 0x80000000#32 ∧
    s32 0x80000000#32 < 0 ∧ s32 (negResult 0x80000000#32) < 0 := by decide

/-- M34 and M33, the ends of the check of a negative product, then M32 and M39. -/
theorem witness_MulCarriesOutTheSixSteps :
    (s32 0x01000000#32 * s32 0xFF7FFFFF#32 < 0 ∧
      BitVec.extractLsb 63 47 (bv64 (s32 0x01000000#32 * s32 0xFF7FFFFF#32)) ≠ 0x1FFFF#17) ∧
    (s32 0x01000000#32 * s32 0xFF800000#32 < 0 ∧
      BitVec.extractLsb 63 47 (bv64 (s32 0x01000000#32 * s32 0xFF800000#32)) = 0x1FFFF#17) ∧
    (0 ≤ s32 0x01000000#32 * s32 0x00800000#32 ∧
      BitVec.extractLsb 63 47 (bv64 (s32 0x01000000#32 * s32 0x00800000#32)) ≠ 0x00000#17) ∧
    (0 ≤ s32 0x7F80007F#32 * s32 0x00010101#32 ∧
      BitVec.extractLsb 63 47 (bv64 (s32 0x7F80007F#32 * s32 0x00010101#32)) = 0x00000#17) := by decide

/-- M33 and M39 in range, M13 and M17 the ties. -/
theorem witness_MulRoundsToNearestTiesAwayFromZero :
    RoundsInRange (s32 0x01000000#32 * s32 0xFF800000#32) ∧ RoundsInRange (s32 0x7F80007F#32 * s32 0x00010101#32) ∧
    (RoundsInRange (s32 0x00000001#32 * s32 0x00008000#32) ∧ s32 0x00000001#32 * s32 0x00008000#32 % 65536 = 32768 ∧
      0 ≤ s32 0x00000001#32 * s32 0x00008000#32) ∧
    (RoundsInRange (s32 0xFFFFFFFF#32 * s32 0x00008000#32) ∧ s32 0xFFFFFFFF#32 * s32 0x00008000#32 % 65536 = 32768 ∧
      s32 0xFFFFFFFF#32 * s32 0x00008000#32 < 0) := by decide

/-- M19 with its negation M15, M43 and M42 beyond the range, M35. -/
theorem witness_MulHasItsAlgebraicProperties :
    ((0xFFFFFFFD#32 : Word) ≠ 0x80000000#32 ∧ RoundsInRange (s32 0xFFFFFFFD#32 * s32 0x00008000#32) ∧
      RoundsInRange (s32 (negResult 0xFFFFFFFD#32) * s32 0x00008000#32)) ∧
    2 ^ 47 < |s32 0x8000FFFE#32 * s32 0x00010002#32| ∧ 2 ^ 47 < |s32 0x7FFF0002#32 * s32 0x00010002#32| ∧
    (0xFFFFFFFF#32 : Word) ≠ 0x80000000#32 := by decide

/-- M9, the lowest product of the corner, and the highest. -/
theorem witness_MulWrapsExactlyInItsCorner :
    (0 < s32 0x7FFF8000#32 * s32 0x00010001#32 ∧ mulResult 0x7FFF8000#32 0x00010001#32 = 0x80000000#32) ∧
    ((2 : Int) ^ 47 - 32768 ≤ 2 ^ 47 - 1 ∧ (2 : Int) ^ 47 - 1 ≤ 2 ^ 47 - 1) := by decide

/-- M6 and M34. -/
theorem witness_SaturationLeavesNoSignal :
    ¬ (-2 ^ 47 ≤ s32 0x80000000#32 * s32 0xFFFF0000#32 ∧ s32 0x80000000#32 * s32 0xFFFF0000#32 < 2 ^ 47) ∧
    ¬ (-2 ^ 47 ≤ s32 0x01000000#32 * s32 0xFF7FFFFF#32 ∧ s32 0x01000000#32 * s32 0xFF7FFFFF#32 < 2 ^ 47) := by decide

theorem witness_AbsIsTheWrappingMagnitude : (0x80000001#32 : Word) ≠ 0x80000000#32 ∧
    s32 (absResult 0x80000000#32) < 0 := by decide

theorem witness_FloorClearsTheFraction : u32 0x00020000#32 % 65536 = 0 ∧ u32 0x80000000#32 % 65536 = 0 := by decide

/-- The ends of the wrapping range and their neighbours outside it. -/
theorem witness_CeilAddsOneToAClearedFraction :
    ¬ (0x7FFF0001 ≤ u32 0x7FFF0000#32 ∧ u32 0x7FFF0000#32 ≤ 0x7FFFFFFF) ∧
    ¬ (0x7FFF0001 ≤ u32 0x80000000#32 ∧ u32 0x80000000#32 ≤ 0x7FFFFFFF) ∧
    (0x7FFF0001 ≤ u32 0x7FFF0001#32 ∧ u32 0x7FFF0001#32 ≤ 0x7FFFFFFF) ∧
    (0x7FFF0001 ≤ u32 0x7FFFFFFF#32 ∧ u32 0x7FFFFFFF#32 ≤ 0x7FFFFFFF) ∧
    u32 0x7FFF0000#32 % 65536 = 0 ∧ u32 0x7FFF0001#32 % 65536 ≠ 0 := by decide

/-- K5, K4, K1 for ordered bounds, K8 for crossed ones. -/
theorem witness_ClampAppliesTheLowerBoundFirst :
    s32 0xFFFF0000#32 ≤ s32 0x00010000#32 ∧ s32 0xFFFB0000#32 < s32 0xFFFF0000#32 ∧
    s32 0x00050000#32 > s32 0x00010000#32 ∧
    (s32 0xFFFF0000#32 ≤ s32 0xFFFF0000#32 ∧ s32 0xFFFF0000#32 ≤ s32 0x00010000#32) ∧
    s32 0x00010000#32 > s32 0xFFFF0000#32 := by decide

theorem witness_Clamp01LimitsToTheUnitInterval : (0x80000000#32 : Word).msb = true ∧
    (0xFFFFFFFF#32 : Word).msb = true := by decide

theorem witness_UnreadPortsHaveNoInfluence :
    ∀ p ∈ portsRead (operandClass .add),
      SamePort ⟨0x01#5, 7#32, 8#32, 0#32, 0#32⟩ ⟨0x02#5, 7#32, 8#32, 9#32, 5#32⟩ p := by
  intro p h
  fin_cases h <;> rfl

theorem witness_EveryEvaluationIsPure :
    step ⟨0x01#5, 7#32, 8#32, 0#32, 0#32⟩ = .next ⟨0x01#5, 7#32, 8#32, 0#32, 15#32⟩ ∧
    (⟨0x01#5, 7#32, 8#32, 0#32, 0#32⟩ : State) ≠ ⟨0x01#5, 7#32, 8#32, 0#32, 99#32⟩ :=
  ⟨rfl, by decide⟩

theorem witness_StepComputesThePortFunction :
    portFunction 0x14#5 0#32 0#32 0#32 = some 0x80000000#32 ∧ portFunction 0x0B#5 1#32 0#32 0#32 = some 1#32 ∧
    portFunction 0x0C#5 0#32 0#32 0#32 = none ∧ portFunction 0x1F#5 0#32 0#32 0#32 = none := by decide

theorem witness_EveryStepLeavesTheOutputSettled :
    step ⟨0x10#5, 7#32, 8#32, 0#32, 99#32⟩ = .next ⟨0x10#5, 7#32, 8#32, 0#32, 0#32⟩ := rfl

theorem witness_MnemonicsAndAliasesNameTheirOperations :
    instrOfMnemonic "CLAMP01" = some .clamp01 ∧ instrOfMnemonic "NEGATE" = some .neg := by decide

theorem witness_FxIsExactOrNothing :
    s32 0x80000000#32 * 10 ^ 1 = -327680 * 65536 ∧ fx ⟨-327680, 1⟩ = some 0x80000000#32 := by decide

theorem witness_LineEncodingHoldsExactlyTheReadPorts :
    lineCode ⟨"d", .sub, [.name "B", .name "A"]⟩ deskT1 =
      .ok ⟨0b00010#5, some 0x00050000#32, some 0x00020000#32, none⟩ := by decide

theorem witness_WellFormedTranscriptsRunToTheirEnd :
    wellFormedTranscript (deskT1.names.map Prod.fst) linesT1 = true ∧
    transcriptMeaning [("A", 0x00020000#32)] [⟨"n", .neg, [.name "A"]⟩] =
      some [("A", 0x00020000#32), ("n", 0xFFFE0000#32)] := by decide

/-- A line before, and a line after that uses both exchanged names. -/
theorem witness_IndependentLinesMayBeExchanged :
    Independent ⟨"p", .neg, [.name "A"]⟩ ⟨"q", .abs, [.name "B"]⟩ ∧
    ∃ e, runTranscript ([⟨"z", .zero, []⟩] ++ ⟨"p", .neg, [.name "A"]⟩ :: ⟨"q", .abs, [.name "B"]⟩ ::
      [⟨"r", .add, [.name "p", .name "q"]⟩]) deskT1 = .next e :=
  ⟨by unfold Independent; decide, _, rfl⟩

/-- 00_scope.md section 7.1 for fx(1.5), T1 for the name. -/
theorem witness_OperandsStandForTheirWords :
    operandWord [] (.fixed ⟨15, 1⟩) = .ok 0x00018000#32 ∧ operandWord deskT1.names (.name "t") = .ok 0x00004000#32 ∧
    operandWords deskT1.names [.name "A", .const .one] = .ok [0x00020000#32, 0x00010000#32] := by decide

end Sys2Proof.Tests
end

section
/-! PROOFS. 00_scope.md: an evaluation is a pure function of the input ports (R9). The idea throughout: what `y` holds
is overwritten by an evaluation and never read, so driving `y` beforehand does not show in any answer. -/

namespace Sys2Proof.Machine

/-- Two states with the same inputs differ in `y` at most. -/
theorem eq_driveY_of_same_inputs {s t : State} (hop : s.op = t.op) (ha : s.a = t.a) (hb : s.b = t.b)
    (hc : s.c = t.c) : t = s.driveY t.y := by
  simp [State.driveY, hop, ha, hb, hc]

/-- Presenting inputs commutes with what `y` holds. -/
@[simp] theorem present_driveY (s : State) (v : Word) (op : Code) (a b c : Word) :
    (s.driveY v).present op a b c = (s.present op a b c).driveY v := rfl

/-- No operation reads `y` (R10). -/
@[simp] theorem exec_driveY (i : Instr) (s : State) (v : Word) : exec i (s.driveY v) = exec i s := by
  cases i <;> rfl

/-- No step reads `y` (R10). -/
@[simp] theorem step_driveY (s : State) (v : Word) : step (s.driveY v) = step s := by
  simp [step]

/-- A step that answers a next state drives `y` and nothing else (R9). -/
theorem eq_driveY_of_step {s t : State} (h : step s = .next t) : t = s.driveY t.y := by
  rcases step_cases s with ⟨i, v, -, -, hs⟩ | ⟨-, hs⟩
  · rw [hs] at h
    cases h
    rfl
  · simp [hs] at h

/-- Settles O36: a step answers its own state with another `y`, and no step reads `y`. -/
theorem everyEvaluationIsPure : Obligations.EveryEvaluationIsPure := by
  unfold Obligations.EveryEvaluationIsPure
  refine ⟨fun s t h => eq_driveY_of_step h, fun s t hop ha hb hc => ?_, fun s t h => ?_,
    fun s t op a b c h => ?_⟩
  · rw [eq_driveY_of_same_inputs hop ha hb hc, step_driveY]
  · have hst : step t = step s := by rw [eq_driveY_of_step h, step_driveY]
    exact hst.trans h
  · rw [eq_driveY_of_step h, present_driveY, step_driveY]

end Sys2Proof.Machine
end

section
/-! PROOFS. What the operations that mention a constant of 40_constants_and_pass.md answer, once each: the closed form
of MUL (R56), the cleared fraction of FLOOR and CEIL (R61, R62) and the two limits of CLAMP01 (R66). -/

namespace Sys2Proof.Machine

open Sys2Proof.Safety

@[simp] theorem s32_zeroWord : s32 zeroWord = 0 := by decide
@[simp] theorem s32_oneWord : s32 oneWord = 65536 := by decide

/-- The sum, whatever the overflow policy is called (R50). -/
theorem addResult_eq (a b : Word) : addResult a b = bv32 (s32 a + s32 b) :=
  narrow_eq _ _

/-- MUL is its closed form (R56): the product's bounds make the 17 top bits a range check, and the tie correction of
a negative product turns rounding half up into adding 32767. -/
theorem mulResult_eq_mulClosedForm (a b : Word) : mulResult a b = mulClosedForm (product a b) := by
  obtain ⟨hlow, hhigh⟩ := product_bounds a b
  rw [mulResult]
  generalize product a b = p at hlow hhigh ⊢
  rw [mulOfProduct, mulClosedForm]
  simp only [narrow_eq, shiftAndRound_eq]
  rcases lt_or_ge p 0 with hneg | hnonneg
  · have hcheck := upperBits_allOnes_iff (p := p) (by omega) hneg
    by_cases hrange : -140737488355328 ≤ p
    · have hq : p - 1 + 32768 = p + 32767 := by omega
      rw [if_pos hneg, if_neg (not_not.2 (hcheck.2 hrange)), if_neg (by omega), if_neg (by omega),
        if_neg (by omega), hq]
    · rw [if_pos hneg, if_pos (mt hcheck.1 hrange), if_neg (by omega), if_pos (by omega)]
      rfl
  · have hcheck := upperBits_zero_iff hnonneg (by omega)
    by_cases hrange : p < 140737488355328
    · rw [if_neg (by omega), if_neg (not_not.2 (hcheck.2 hrange)), if_neg (by omega), if_neg (by omega),
        if_pos hnonneg]
    · rw [if_neg (by omega), if_pos (mt hcheck.1 hrange), if_pos (by omega)]
      rfl

/-- A product that is a whole multiple of the scale factor is divided exactly. -/
theorem mulClosedForm_mul_scale {n : Int} (hn : Fits32 n) : mulClosedForm (n * 65536) = bv32 n := by
  obtain ⟨hlow, hhigh⟩ := hn
  have hup : (n * 65536 + 32768) / 65536 = n := by omega
  have hdown : (n * 65536 + 32767) / 65536 = n := by omega
  rw [mulClosedForm, if_neg (by omega), if_neg (by omega), hup, hdown, ite_self]

/-- One is the multiplicative identity (R58). -/
theorem mulResult_oneWord (x : Word) : mulResult x oneWord = x := by
  rw [mulResult_eq_mulClosedForm, product, s32_oneWord, mulClosedForm_mul_scale, bv32_s32]
  have := s32_bounds x
  omega

/-- CEIL's test of the low 16 bits is the test of the fraction. -/
theorem lowBits_eq_zero_iff (a : Word) : a &&& 0x0000FFFF#32 = 0#32 ↔ u32 a % 65536 = 0 := by
  have hlow : (a &&& 0x0000FFFF#32).toNat = a.toNat % 65536 := by
    rw [BitVec.toNat_and]
    exact Nat.and_two_pow_sub_one_eq_mod _ 16
  rw [← BitVec.toNat_inj, hlow, u32]
  simp only [BitVec.toNat_ofNat]
  omega

/-- FLOOR shifts the fraction out and zeros in (R61). -/
theorem floorResult_eq_shift (a : Word) : floorResult a = a >>> 16 <<< 16 := by
  have hmask : 0xFFFF0000#32 = BitVec.allOnes 32 <<< 16 := by decide
  rw [floorResult, hmask, BitVec.shiftLeft_ushiftRight]

/-- Clearing the low 16 bits rounds down to a multiple of the scale factor, on the signed reading (R61). -/
theorem s32_floorResult (a : Word) : s32 (floorResult a) = 65536 * (s32 a / 65536) := by
  have hu : u32 (floorResult a) = 65536 * (u32 a / 65536) := by
    have := a.isLt
    rw [floorResult_eq_shift, u32, u32, BitVec.toNat_shiftLeft, BitVec.toNat_ushiftRight,
      Nat.shiftLeft_eq, Nat.shiftRight_eq_div_pow]
    omega
  have ha := s32_bounds a
  have hf := s32_bounds (floorResult a)
  have hau := u32_emod a
  have hfu := u32_emod (floorResult a)
  omega

/-- A fraction makes CEIL add One to the cleared value, wrapping (R62). -/
theorem ceilResult_of_fraction {a : Word} (h : u32 a % 65536 ≠ 0) :
    ceilResult a = bv32 (s32 (floorResult a) + s32 oneWord) := by
  have hlow : a &&& 0x0000FFFF#32 ≠ 0 := mt (lowBits_eq_zero_iff a).1 h
  rw [ceilResult, if_pos hlow, wrapAdd_eq, floorResult]

/-- CLAMP01's lower limit is Zero (R66). -/
theorem clamp01Result_of_neg {x : Word} (h : s32 x < 0) : clamp01Result x = zeroWord :=
  if_pos (by simpa using h)

/-- CLAMP01's upper limit is One (R66). -/
theorem clamp01Result_of_one_lt {x : Word} (h : 65536 < s32 x) : clamp01Result x = oneWord := by
  rw [clamp01Result, if_neg (by rw [s32_zeroWord]; omega), if_pos (by simpa using h)]

end Sys2Proof.Machine
end

section
/-! PROOFS. 40_constants_and_pass.md: the generators ZERO (R40) and ONE (R41), and PASS (R45). -/

namespace Sys2Proof.Machine

open Sys2Proof.Safety

/-- Up to 32767.0 the increment of CEIL does not wrap: a word with a fraction lies strictly above its floor, so the
floor is at most 32766.0. -/
theorem s32_ceilResult_of_fraction {x : Word} (hfrac : u32 x % 65536 ≠ 0) (hx : s32 x ≤ 2147418112) :
    s32 (ceilResult x) = s32 (floorResult x) + s32 oneWord := by
  have hbounds := s32_bounds x
  have hword := u32_emod x
  rw [ceilResult_of_fraction hfrac, s32_floorResult, s32_oneWord, s32_bv32_of_fits] <;> omega

/-- Settles O10: One is the scale factor itself, so multiplying by it shifts a whole word up by 16 bits, which MUL's
rounding shift undoes. -/
theorem oneGeneratesTheScaleFactor : Obligations.OneGeneratesTheScaleFactor := by
  unfold Obligations.OneGeneratesTheScaleFactor
  have hvalue : value oneWord = 1 := by simp [value]
  exact ⟨rfl, exec_one, s32_oneWord, hvalue, mulResult_oneWord,
    fun x hfrac hx => s32_ceilResult_of_fraction hfrac hx, fun x hx => clamp01Result_of_one_lt hx⟩

/-- Settles O9: adding Zero adds the integer 0 to the signed reading, which determines the word. -/
theorem zeroGeneratesRawZero : Obligations.ZeroGeneratesRawZero := by
  unfold Obligations.ZeroGeneratesRawZero
  have hvalue : value zeroWord = 0 := by simp [value]
  have hadd : ∀ x, addResult x zeroWord = x := fun x => by simp [addResult_eq]
  exact ⟨rfl, exec_zero, hvalue, hadd, fun x hx => clamp01Result_of_neg hx⟩

/-- Settles O14: presenting code 0 selects PASS, whose result is the word on `a`. -/
theorem passDrivesItsOperand : Obligations.PassDrivesItsOperand := by
  unfold Obligations.PassDrivesItsOperand
  have hdecode : decode 0x00#5 = .ok .pass := rfl
  exact ⟨hdecode, exec_pass, fun s r b c => ⟨_, step_of_decode (s := s.present 0x00#5 r b c) hdecode, rfl⟩⟩

end Sys2Proof.Machine
end

section
/-! PROOFS. 43_compare_shape.md section 6: CLAMP01 (R66). The idea: on the signed reading, which determines the word
(R67), both CLAMP and CLAMP01 are a `min` of a `max`. -/

namespace Sys2Proof.Machine

/-- CLAMP on the signed readings: the lower bound first, then the upper one (R65). -/
theorem s32_clampResult (a b c : Word) : s32 (clampResult a b c) = min (max (s32 a) (s32 b)) (s32 c) := by
  rw [clampResult, s32_signedMin, s32_signedMax]

/-- Between its limits CLAMP01 answers its operand (R66). -/
theorem clamp01Result_of_mem_unit {x : Word} (hlow : 0 ≤ s32 x) (hhigh : s32 x ≤ 65536) : clamp01Result x = x := by
  rw [clamp01Result, s32_zeroWord, s32_oneWord, if_neg (by omega), if_neg (by omega)]

/-- CLAMP01 on the signed reading (R66). -/
theorem s32_clamp01Result (x : Word) : s32 (clamp01Result x) = min (max (s32 x) 0) 65536 := by
  rcases lt_or_ge (s32 x) 0 with hneg | hnonneg
  · rw [clamp01Result_of_neg hneg, s32_zeroWord]
    omega
  · rcases lt_or_ge 65536 (s32 x) with habove | hbelow
    · rw [clamp01Result_of_one_lt habove, s32_oneWord]
      omega
    · rw [clamp01Result_of_mem_unit hnonneg hbelow]
      omega

/-- CLAMP01 is CLAMP between the generated constants Zero and One (R66). -/
theorem clamp01Result_eq_clampResult (x : Word) : clamp01Result x = clampResult x zeroWord oneWord := by
  rw [← s32_inj, s32_clamp01Result, s32_clampResult, s32_zeroWord, s32_oneWord]

/-- CLAMP01 answers within the unit interval (R66). -/
theorem clamp01Result_mem_unit (x : Word) : 0 ≤ s32 (clamp01Result x) ∧ s32 (clamp01Result x) ≤ 65536 := by
  rw [s32_clamp01Result]
  omega

/-- A word from 0 to below 2^17 has its bits 31 to 17 clear. -/
theorem extractLsb_31_17_eq_zero {x : Word} (hlow : 0 ≤ s32 x) (hhigh : s32 x < 131072) :
    BitVec.extractLsb 31 17 x = 0#15 := by
  have hnat : x.toNat < 131072 := by
    have hread := u32_emod x
    rw [u32] at hread
    omega
  have hdiv : x.toNat / 2 ^ 17 = 0 := Nat.div_eq_of_lt hnat
  rw [← BitVec.toNat_inj, BitVec.extractLsb_toNat, Nat.shiftRight_eq_div_pow, hdiv]
  rfl

/-- Settles O32: by the cases below, above and within the unit interval; bit 31 is the sign of the signed reading. -/
theorem clamp01LimitsToTheUnitInterval : Obligations.Clamp01LimitsToTheUnitInterval := by
  unfold Obligations.Clamp01LimitsToTheUnitInterval
  have hmsb : ∀ x : Word, x.msb = true → clamp01Result x = zeroWord := fun x hx =>
    clamp01Result_of_neg (BitVec.toInt_neg_of_msb_true hx)
  have hunit : ∀ x : Word, 0 ≤ s32 (clamp01Result x) ∧ s32 (clamp01Result x) ≤ 65536 ∧
      BitVec.extractLsb 31 17 (clamp01Result x) = 0#15 := fun x => by
    obtain ⟨hlow, hhigh⟩ := clamp01Result_mem_unit x
    exact ⟨hlow, hhigh, extractLsb_31_17_eq_zero hlow (by omega)⟩
  refine ⟨rfl, exec_clamp01, clamp01Result_eq_clampResult, ?_, ?_, ?_, ?_, ?_, ?_, hmsb, hunit, ?_, ?_, ?_⟩ <;>
    decide

end Sys2Proof.Machine
end

section
/-! PROOFS. What every operation answers as a function of exact integers, once each. The idea: a word is decided by its
signed reading (R67), so an equation of words becomes one of integers; and the wrapping sum, difference and negation are
those of bit vectors, whose laws the library has. -/

namespace Sys2Proof.Machine

open Sys2Proof.Safety

@[simp] theorem s32_minusOneWord : s32 minusOneWord = -65536 := by decide
@[simp] theorem s32_maxWord : s32 maxWord = 2147483647 := by decide
@[simp] theorem s32_minWord : s32 minWord = -2147483648 := by decide

/-- A word with a known signed reading. -/
theorem eq_bv32_of_s32_eq {w : Word} {n : Int} (h : s32 w = n) : w = bv32 n := by
  rw [← h, bv32_s32]

/-- MinValue is the only word with its reading. -/
theorem eq_minWord_iff (a : Word) : a = minWord ↔ s32 a = -2147483648 := by
  rw [← s32_inj, s32_minWord]

/-- Every word is at least MinValue. -/
theorem s32_minWord_le (x : Word) : s32 minWord ≤ s32 x := by
  rw [s32_minWord]
  exact (s32_bounds x).1

/-- Every word is at most MaxValue. -/
theorem s32_le_s32_maxWord (x : Word) : s32 x ≤ s32 maxWord := by
  rw [s32_maxWord]
  exact (s32_bounds x).2

/-- Narrowing keeps the integer modulo 2^32. -/
theorem s32_bv32_emod (n : Int) : s32 (bv32 n) % 4294967296 = n % 4294967296 :=
  (bv32_eq_iff _ _).1 (bv32_s32 _)

/-- One wrap above the range takes 2^32 away. -/
theorem s32_bv32_of_above {n : Int} (hlow : 2147483648 ≤ n) (hhigh : n < 6442450944) :
    s32 (bv32 n) = n - 4294967296 := by
  have hmod := s32_bv32_emod n
  have hbounds := s32_bounds (bv32 n)
  omega

/-- One wrap below the range adds 2^32. -/
theorem s32_bv32_of_below {n : Int} (hhigh : n < -2147483648) (hlow : -6442450944 ≤ n) :
    s32 (bv32 n) = n + 4294967296 := by
  have hmod := s32_bv32_emod n
  have hbounds := s32_bounds (bv32 n)
  omega

/-- The two readings have the same fraction. -/
theorem u32_emod_scale (a : Word) : u32 a % 65536 = s32 a % 65536 := by
  have hread := u32_emod a
  omega

/-- The difference, whatever the overflow policy is called (R51). -/
theorem subResult_eq (a b : Word) : subResult a b = bv32 (s32 a - s32 b) :=
  narrow_eq _ _

/-- The negation on the signed reading (R52). -/
theorem negResult_eq (a : Word) : negResult a = bv32 (-s32 a) := by
  rw [negResult, wrapSub_eq, s32_zeroWord, zero_sub]

/-- ADD is the sum of bit vectors. -/
theorem addResult_eq_add (a b : Word) : addResult a b = a + b := by
  have hsum : bv32 (s32 a + s32 b) = bv32 (s32 a) + bv32 (s32 b) := BitVec.ofInt_add _ _
  rw [addResult_eq, hsum, bv32_s32, bv32_s32]

/-- NEG is the negation of bit vectors. -/
theorem negResult_eq_neg (a : Word) : negResult a = -a := by
  have hneg : bv32 (-s32 a) = -bv32 (s32 a) := BitVec.ofInt_neg
  rw [negResult_eq, hneg, bv32_s32]

/-- A difference is a sum with the negation (at MinValue by decision D6). -/
theorem subResult_eq_addResult_negResult (a b : Word) : subResult a b = addResult a (negResult b) := by
  have hneg := s32_bv32_emod (-s32 b)
  rw [subResult_eq, addResult_eq, negResult_eq, bv32_eq_iff]
  omega

/-- SUB is the difference of bit vectors. -/
theorem subResult_eq_sub (a b : Word) : subResult a b = a - b := by
  rw [subResult_eq_addResult_negResult, addResult_eq_add, negResult_eq_neg, BitVec.sub_eq_add_neg]

/-- NEG is exact off MinValue (R52). -/
theorem s32_negResult {a : Word} (h : a ≠ minWord) : s32 (negResult a) = -s32 a := by
  have hbounds := s32_bounds a
  rw [Ne, eq_minWord_iff] at h
  rw [negResult_eq, s32_bv32_of_fits] <;> omega

/-- NEG of MinValue is MinValue (decision D6). -/
theorem negResult_minWord : negResult minWord = minWord := by decide

/-- ABS is the identity from zero up (R60). -/
theorem absResult_of_nonneg {a : Word} (h : 0 ≤ s32 a) : absResult a = a :=
  if_neg (by omega)

/-- ABS is NEG below zero (R60). -/
theorem absResult_of_neg {a : Word} (h : s32 a < 0) : absResult a = negResult a :=
  if_pos h

/-- ABS is the narrowed magnitude (R60). -/
theorem absResult_eq (a : Word) : absResult a = bv32 |s32 a| := by
  rcases lt_or_ge (s32 a) 0 with hneg | hnonneg
  · rw [absResult_of_neg hneg, negResult_eq, abs_of_neg hneg]
  · rw [absResult_of_nonneg hnonneg, abs_of_nonneg hnonneg, bv32_s32]

/-- FLOOR keeps a whole number (R61). -/
theorem floorResult_of_whole {a : Word} (h : u32 a % 65536 = 0) : floorResult a = a := by
  have hfrac := u32_emod_scale a
  rw [← s32_inj, s32_floorResult]
  omega

/-- CEIL of a whole number is FLOOR of it (R62). -/
theorem ceilResult_of_whole {a : Word} (h : u32 a % 65536 = 0) : ceilResult a = floorResult a :=
  if_neg (not_not.2 ((lowBits_eq_zero_iff a).2 h))

/-- CEIL is the narrowed least whole number not below the operand (R62). -/
theorem ceilResult_eq (a : Word) : ceilResult a = bv32 (65536 * ceilDiv (s32 a)) := by
  have hscale := u32_emod_scale a
  rw [ceilDiv]
  by_cases hfrac : u32 a % 65536 = 0
  · rw [ceilResult_of_whole hfrac]
    refine eq_bv32_of_s32_eq ?_
    rw [s32_floorResult]
    omega
  · rw [ceilResult_of_fraction hfrac, s32_floorResult, s32_oneWord]
    congr 1
    omega

/-- MIN on the signed readings (R63). -/
theorem s32_minResult (a b : Word) : s32 (minResult a b) = min (s32 a) (s32 b) :=
  s32_signedMin a b

/-- MAX on the signed readings (R64). -/
theorem s32_maxResult (a b : Word) : s32 (maxResult a b) = max (s32 a) (s32 b) :=
  s32_signedMax a b

end Sys2Proof.Machine
end

section
/-! PROOFS. 30_encoding.md sections 1 and 5: an operation's code and mnemonic are read back to it, and only its own code
decodes to it. -/

namespace Sys2Proof.Machine

/-- The per-instruction laws as one: what holds of the code and mnemonic of every operation. -/
theorem encoding_statement : ∀ i : Instr, Laws.Encoding.Statement i
  | .pass => Laws.Encoding.pass
  | .add => Laws.Encoding.add
  | .sub => Laws.Encoding.sub
  | .neg => Laws.Encoding.neg
  | .mul => Laws.Encoding.mul
  | .abs => Laws.Encoding.abs
  | .floor => Laws.Encoding.floor
  | .ceil => Laws.Encoding.ceil
  | .min => Laws.Encoding.min
  | .max => Laws.Encoding.max
  | .clamp => Laws.Encoding.clamp
  | .clamp01 => Laws.Encoding.clamp01
  | .zero => Laws.Encoding.zero
  | .one => Laws.Encoding.one
  | .minusone => Laws.Encoding.minusone
  | .maxvalue => Laws.Encoding.maxvalue
  | .minvalue => Laws.Encoding.minvalue

/-- An operation's code is defined (R33). -/
theorem definedCode_encode (i : Instr) : definedCode (encode i) = true :=
  (encoding_statement i).1

/-- An operation's code decodes to it (R30). -/
@[simp] theorem decode_encode (i : Instr) : decode (encode i) = .ok i :=
  (encoding_statement i).2.1

/-- An operation's mnemonic is read back to it (R34). -/
theorem instrOfMnemonic_mnemonic (i : Instr) : instrOfMnemonic (mnemonic i) = some i :=
  (encoding_statement i).2.2

/-- Only an operation's own code decodes to it (R30). -/
theorem eq_encode_of_decode {op : Code} {i : Instr} (h : decode op = .ok i) : op = encode i := by
  rcases decode_cases op with ⟨j, hj, hop⟩ | ⟨hr, -⟩
  · rw [h] at hj
    cases hj
    exact hop
  · rw [h] at hr
    cases hr

end Sys2Proof.Machine
end

section
/-! PROOFS. 10_state.md section 2 and 70_reset_and_hazards.md section 3: a step computes F(op, a, b, c), so every step
leaves the output settled. -/

namespace Sys2Proof.Machine

open Sys2Proof.Safety

/-- Every operation drives the value that F has under its code, whatever the ports hold. -/
theorem exec_computes_portFunction (i : Instr) (s : State) :
    ∃ v, portFunction (encode i) s.a s.b s.c = some v ∧ exec i s = .next (s.driveY v) := by
  cases i
  case pass => exact ⟨_, congrArg some (bv32_s32 s.a), rfl⟩
  case add => exact ⟨_, congrArg some (addResult_eq s.a s.b).symm, rfl⟩
  case sub => exact ⟨_, congrArg some (subResult_eq s.a s.b).symm, rfl⟩
  case neg => exact ⟨_, congrArg some (negResult_eq s.a).symm, rfl⟩
  case mul => exact ⟨_, congrArg some (mulResult_eq_mulClosedForm s.a s.b).symm, rfl⟩
  case abs => exact ⟨_, congrArg some (absResult_eq s.a).symm, rfl⟩
  case floor => exact ⟨_, congrArg some (eq_bv32_of_s32_eq (s32_floorResult s.a)).symm, rfl⟩
  case ceil => exact ⟨_, congrArg some (ceilResult_eq s.a).symm, rfl⟩
  case min => exact ⟨_, congrArg some (eq_bv32_of_s32_eq (s32_minResult s.a s.b)).symm, rfl⟩
  case max => exact ⟨_, congrArg some (eq_bv32_of_s32_eq (s32_maxResult s.a s.b)).symm, rfl⟩
  case clamp => exact ⟨_, congrArg some (eq_bv32_of_s32_eq (s32_clampResult s.a s.b s.c)).symm, rfl⟩
  case clamp01 =>
    have hread : s32 (clamp01Result s.a) = max 0 (min (s32 s.a) 65536) := by
      rw [s32_clamp01Result]
      omega
    exact ⟨_, congrArg some (eq_bv32_of_s32_eq hread).symm, rfl⟩
  case zero | one | minusone | maxvalue | minvalue => exact ⟨_, rfl, rfl⟩

/-- F has no value under a reserved code (R33). -/
theorem portFunction_of_reserved {op : Code} (h : definedCode op = false) (a b c : Word) :
    portFunction op a b c = none := by
  unfold portFunction
  split
  case h_18 => rfl
  all_goals simp_all [definedCode]

/-- Every step, beside F: where F has a value the step drives it, and elsewhere the code is refused. -/
theorem step_portFunction_cases (s : State) :
    (∃ v, portFunction s.op s.a s.b s.c = some v ∧ step s = .next (s.driveY v)) ∨
      (portFunction s.op s.a s.b s.c = none ∧ step s = .refused (.reservedCode s.op)) := by
  rcases step_cases s with ⟨i, -, hdecode, -, -⟩ | ⟨hreserved, hstep⟩
  · left
    rw [step_of_decode hdecode, eq_encode_of_decode hdecode]
    exact exec_computes_portFunction i s
  · exact .inr ⟨portFunction_of_reserved hreserved _ _ _, hstep⟩

/-- Settles O37: F and the step have a value for the same codes, and there the same one. -/
theorem stepComputesThePortFunction : Obligations.StepComputesThePortFunction := by
  unfold Obligations.StepComputesThePortFunction
  intro s
  rcases step_portFunction_cases s with ⟨v, hF, hstep⟩ | ⟨hF, hstep⟩
  · refine ⟨fun w hw => ?_, fun hnone => ?_⟩
    · rw [hF, Option.some_inj] at hw
      rw [hstep, hw]
      rfl
    · rw [hF] at hnone
      cases hnone
  · refine ⟨fun w hw => ?_, fun _ => hstep⟩
    rw [hF] at hw
    cases hw

/-- Settles O38: a step changes `y` alone, and to the value F has on the inputs, which it leaves as they are. -/
theorem everyStepLeavesTheOutputSettled : Obligations.EveryStepLeavesTheOutputSettled := by
  unfold Obligations.EveryStepLeavesTheOutputSettled
  intro s t hst
  rcases step_portFunction_cases s with ⟨v, hF, hstep⟩ | ⟨-, hstep⟩
  · rw [hstep] at hst
    cases hst
    exact hF
  · rw [hstep] at hst
    cases hst

end Sys2Proof.Machine
end

section
/-! PROOFS. 30_encoding.md section 2: the ports that an operation's class does not read have no influence (decision D13).
The classes of R31 are four shapes of evaluation, each of which depends on its own ports alone. -/

namespace Sys2Proof.Machine

open Sys2Proof.Safety

variable {s t : State}

/-- A class U evaluation depends on `a` alone. -/
theorem evalU_congr (f : Word → Word) (h : ∀ p ∈ portsRead .classU, SamePort s t p) :
    ∃ v, evalU f s = .next (s.driveY v) ∧ evalU f t = .next (t.driveY v) := by
  have ha : s.readPort .a = t.readPort .a := h .a (by decide)
  exact ⟨_, rfl, by rw [evalU, ha]⟩

/-- A class B evaluation depends on `a` and `b` alone. -/
theorem evalB_congr (f : Word → Word → Word) (h : ∀ p ∈ portsRead .classB, SamePort s t p) :
    ∃ v, evalB f s = .next (s.driveY v) ∧ evalB f t = .next (t.driveY v) := by
  have ha : s.readPort .a = t.readPort .a := h .a (by decide)
  have hb : s.readPort .b = t.readPort .b := h .b (by decide)
  exact ⟨_, rfl, by rw [evalB, ha, hb]⟩

/-- A class T evaluation depends on the three operand ports. -/
theorem evalT_congr (f : Word → Word → Word → Word) (h : ∀ p ∈ portsRead .classT, SamePort s t p) :
    ∃ v, evalT f s = .next (s.driveY v) ∧ evalT f t = .next (t.driveY v) := by
  have ha : s.readPort .a = t.readPort .a := h .a (by decide)
  have hb : s.readPort .b = t.readPort .b := h .b (by decide)
  have hc : s.readPort .c = t.readPort .c := h .c (by decide)
  exact ⟨_, rfl, by rw [evalT, ha, hb, hc]⟩

/-- States that agree on the ports an operation reads get the same `y` from it (R31). -/
theorem exec_congr {i : Instr} (h : ∀ p ∈ portsRead (operandClass i), SamePort s t p) :
    ∃ v, exec i s = .next (s.driveY v) ∧ exec i t = .next (t.driveY v) := by
  cases i
  case zero | one | minusone | maxvalue | minvalue => exact ⟨_, rfl, rfl⟩
  case pass | neg | abs | floor | ceil | clamp01 => exact evalU_congr _ h
  case add | sub | mul | min | max => exact evalB_congr _ h
  case clamp => exact evalT_congr _ h

/-- Settles O35: by the shapes of the four classes; the class column is the model's own table. -/
theorem unreadPortsHaveNoInfluence : Obligations.UnreadPortsHaveNoInfluence := by
  unfold Obligations.UnreadPortsHaveNoInfluence
  exact ⟨fun i s t h => exec_congr h, by decide⟩

/-- F under an operation's code does not depend on the ports the operation does not read. -/
theorem portFunction_congr {i : Instr} (h : ∀ p ∈ portsRead (operandClass i), SamePort s t p) :
    portFunction (encode i) s.a s.b s.c = portFunction (encode i) t.a t.b t.c := by
  obtain ⟨v, hs, ht⟩ := exec_congr h
  obtain ⟨u, hFs, hes⟩ := exec_computes_portFunction i s
  obtain ⟨w, hFt, het⟩ := exec_computes_portFunction i t
  have huv : u = v := congrArg State.y (Host.Outcome.next.inj (hes.symm.trans hs))
  have hwv : w = v := congrArg State.y (Host.Outcome.next.inj (het.symm.trans ht))
  rw [hFs, hFt, huv, hwv]

end Sys2Proof.Machine
end

section
/-! PROOFS. 30_encoding.md section 5: operands and the encoding of a line. -/

namespace Sys2Proof.Machine

/-- A decimal's operand stands for its `fx` (R34). -/
theorem operandWord_fixed_eq_ok_iff (names : Names) (d : Decimal) (w : Word) :
    operandWord names (.fixed d) = .ok w ↔ fx d = some w := by
  rw [operandWord]
  cases fx d <;> simp

/-- A name stands for the value it is bound to (R35). -/
theorem operandWord_name_eq_ok_iff (names : Names) (n : String) (w : Word) :
    operandWord names (.name n) = .ok w ↔ names.lookup n = some w := by
  rw [operandWord]
  cases names.lookup n <;> simp

/-- A line's first operand and the rest have words exactly when the line's operands have. -/
theorem operandWords_cons_eq_ok_iff (names : Names) (o : Operand) (os : List Operand) (ws : List Word) :
    operandWords names (o :: os) = .ok ws ↔
      ∃ w vs, operandWord names o = .ok w ∧ operandWords names os = .ok vs ∧ ws = w :: vs := by
  rw [operandWords]
  cases operandWord names o <;> cases operandWords names os <;> simp [eq_comm]

/-- Operands are taken one by one in order (R34). -/
theorem operandWords_eq_ok_iff_forall₂ (names : Names) (os : List Operand) (ws : List Word) :
    operandWords names os = .ok ws ↔ List.Forall₂ (fun o w => operandWord names o = .ok w) os ws := by
  induction os generalizing ws with
  | nil => cases ws <;> simp [operandWords]
  | cons o os ih =>
    simp only [operandWords_cons_eq_ok_iff, List.forall₂_cons_left_iff, ih]

/-- Settles O45: form by form, and along the list of operands. -/
theorem operandsStandForTheirWords : Obligations.OperandsStandForTheirWords := by
  unfold Obligations.OperandsStandForTheirWords
  exact ⟨fun _ _ => rfl, fun _ => ⟨rfl, rfl, rfl, rfl, rfl⟩, operandWord_fixed_eq_ok_iff,
    operandWord_name_eq_ok_iff, operandWords_eq_ok_iff_forall₂⟩

/-- The number `fx` divides exactly is the mantissa times the scale factor. -/
theorem fx_eq_some_iff (d : Decimal) (w : Word) : fx d = some w ↔ s32 w * 10 ^ d.places = d.mantissa * 65536 := by
  have hpos : (0 : Int) < 10 ^ d.places := by positivity
  change fx d = some w ↔ s32 w * 10 ^ d.places = d.mantissa * Config.scale
  unfold fx
  dsimp only
  generalize d.mantissa * Config.scale = num
  generalize (10 : Int) ^ d.places = den at hpos
  constructor
  · intro h
    split at h
    · next hfits =>
      obtain ⟨hexact, hlow, hhigh⟩ := hfits
      cases h
      rw [s32_bv32_of_fits hlow hhigh]
      exact Int.ediv_mul_cancel (Int.dvd_of_emod_eq_zero hexact)
    · cases h
  · intro h
    obtain ⟨hlow, hhigh⟩ := s32_bounds w
    have hdiv : num / den = s32 w := by rw [← h, Int.mul_ediv_cancel _ hpos.ne']
    rw [if_pos ⟨by rw [← h, Int.mul_emod_left], by omega, by omega⟩, hdiv, bv32_s32]

/-- Settles O41: the exact quotient is the word's reading, and a word's reading fits 32 bits. -/
theorem fxIsExactOrNothing : Obligations.FxIsExactOrNothing := by
  unfold Obligations.FxIsExactOrNothing
  exact fx_eq_some_iff

/-- The ports read, after presenting, hold the operands in order (R31). -/
theorem filterMap_portIfRead {k : OperandClass} {op : Code} {ws : List Word} {s t : State}
    (h : presentOperands k op ws s = some t) :
    [portIfRead k t .a, portIfRead k t .b, portIfRead k t .c].filterMap id = ws := by
  unfold presentOperands at h
  split at h <;> cases h <;> rfl

/-- A port is given exactly when the class reads it (R35). -/
theorem portIfRead_isSome (k : OperandClass) (s : State) (p : Port) :
    (portIfRead k s p).isSome = true ↔ p ∈ portsRead k := by
  simp [portIfRead]

/-- What a line presents: its operands have words, and they were presented. -/
theorem presentLine_eq_ok_iff {l : Line} {d : Desk} {s : State} :
    presentLine l d = .ok s ↔ ∃ ws, operandWords d.names l.operands = .ok ws ∧
      presentOperands (operandClass l.op) (encode l.op) ws d.block = some s := by
  rw [presentLine]
  cases operandWords d.names l.operands with
  | error r => simp
  | ok ws =>
    simp only [Except.ok.injEq, exists_eq_left']
    cases presentOperands (operandClass l.op) (encode l.op) ws d.block <;> simp

/-- Settles O42: the encoding reads back the ports that presenting the line's operands has driven. -/
theorem lineEncodingHoldsExactlyTheReadPorts : Obligations.LineEncodingHoldsExactlyTheReadPorts := by
  unfold Obligations.LineEncodingHoldsExactlyTheReadPorts
  intro l d t h
  rw [lineCode] at h
  cases hpresent : presentLine l d with
  | error r => simp [hpresent] at h
  | ok s =>
    obtain ⟨ws, hwords, hports⟩ := presentLine_eq_ok_iff.1 hpresent
    simp only [hpresent, Except.ok.injEq] at h
    subst h
    refine ⟨(presentOperands_spec hports).1, portIfRead_isSome _ _ _, portIfRead_isSome _ _ _,
      portIfRead_isSome _ _ _, ?_⟩
    rw [hwords, filterMap_portIfRead hports]

end Sys2Proof.Machine
end

section
/-! PROOFS. 30_encoding.md section 5: transcripts. The idea: a line runs exactly when its name is free and it has a
meaning under the names bound before it, and then binds that meaning; what the ports held before does not matter. So
transcripts are compared by what their names look up to. -/

namespace Sys2Proof.Machine

open Sys2Proof.Safety

@[simp] theorem keepResult_names (l : Line) (d : Desk) (t : State) :
    (keepResult l d t).names = d.names ++ [(l.name, t.y)] := rfl

/-- A name is free exactly when it is not among the bound ones. -/
theorem lookup_eq_none_iff_not_mem (names : Names) (n : String) :
    names.lookup n = none ↔ n ∉ names.map Prod.fst := by
  rw [List.lookup_eq_none_iff]
  constructor
  · intro h hmem
    obtain ⟨p, hp, rfl⟩ := List.mem_map.1 hmem
    simpa using h p hp
  · intro h p hp
    simpa using fun heq : n = p.1 => h (List.mem_map.2 ⟨p, hp, heq.symm⟩)

/-- The `y` of an operation on its operand words is F on the ports that present them, on any ports before. -/
theorem resultOfWords_of_presentOperands {i : Instr} {ws : List Word} {s t : State}
    (h : presentOperands (operandClass i) (encode i) ws s = some t) :
    resultOfWords i ws = portFunction (encode i) t.a t.b t.c := by
  obtain ⟨r, hr, -, hports⟩ := (presentOperands_spec h).2 State.reset
  have hreset : resultOfWords i ws = portFunction (encode i) r.a r.b r.c := by
    unfold presentOperands at hr
    unfold resultOfWords
    generalize operandClass i = k at hr
    split at hr <;> cases hr <;> rfl
  rw [hreset]
  exact portFunction_congr hports

/-- Operand words in the number of the class give a result (R34). -/
theorem presentOperands_of_resultOfWords {i : Instr} {ws : List Word} {v : Word} (h : resultOfWords i ws = some v)
    (s : State) : ∃ t, presentOperands (operandClass i) (encode i) ws s = some t := by
  unfold resultOfWords at h
  unfold presentOperands
  generalize operandClass i = k at h
  split at h
  case h_5 => cases h
  all_goals exact ⟨_, rfl⟩

/-- Presented operands are evaluated to their operation's result. -/
theorem step_of_presentOperands {i : Instr} {ws : List Word} {s t : State}
    (h : presentOperands (operandClass i) (encode i) ws s = some t) :
    ∃ v, resultOfWords i ws = some v ∧ step t = .next (t.driveY v) := by
  have hdecode : decode t.op = .ok i := by rw [(presentOperands_spec h).1, decode_encode]
  rw [resultOfWords_of_presentOperands h, step_of_decode hdecode]
  exact exec_computes_portFunction i t

/-- A line has a meaning exactly through the words of its operands. -/
theorem lineMeaning_eq_some_iff {names : Names} {l : Line} {v : Word} :
    lineMeaning names l = some v ↔
      ∃ ws, operandWords names l.operands = .ok ws ∧ resultOfWords l.op ws = some v := by
  rw [lineMeaning]
  cases operandWords names l.operands <;> simp

/-- A line that runs had a free name and a meaning, and binds the one to the other. -/
theorem lineMeaning_of_runLine {l : Line} {d e : Desk} (h : runLine l d = .next e) :
    d.names.lookup l.name = none ∧
      ∃ v, lineMeaning d.names l = some v ∧ e.names = d.names ++ [(l.name, v)] := by
  obtain ⟨hfree, ws, s, t, hwords, hports, hstep, rfl⟩ := runLine_cases h
  obtain ⟨v, hresult, hdriven⟩ := step_of_presentOperands hports
  rw [hdriven] at hstep
  cases hstep
  exact ⟨hfree, v, lineMeaning_eq_some_iff.2 ⟨ws, hwords, hresult⟩, rfl⟩

/-- A line with a free name and a meaning runs, on any ports. -/
theorem runLine_of_lineMeaning {l : Line} {d : Desk} {v : Word} (hfree : d.names.lookup l.name = none)
    (h : lineMeaning d.names l = some v) : ∃ e, runLine l d = .next e ∧ e.names = d.names ++ [(l.name, v)] := by
  obtain ⟨ws, hwords, hresult⟩ := lineMeaning_eq_some_iff.1 h
  obtain ⟨s, hports⟩ := presentOperands_of_resultOfWords hresult d.block
  obtain ⟨u, hu, hstep⟩ := step_of_presentOperands hports
  have hline : presentLine l d = .ok s := presentLine_eq_ok_iff.2 ⟨ws, hwords, hports⟩
  have huv : u = v := Option.some_inj.1 (hu.symm.trans hresult)
  refine ⟨keepResult l d (s.driveY u), by simp [runLine, hfree, hline, hstep], ?_⟩
  simp [huv]

/-- A well-formed line has a free name and a meaning. -/
theorem lineMeaning_of_wellFormed {names : Names} {l : Line}
    (h : wellFormedLine (names.map Prod.fst) l = true) :
    names.lookup l.name = none ∧ ∃ v, lineMeaning names l = some v := by
  simp only [wellFormedLine, Bool.and_eq_true, beq_iff_eq] at h
  obtain ⟨⟨hname, hcount⟩, hoperands⟩ := h
  obtain ⟨ws, hwords, hlength⟩ := operandWords_of_wellFormed hoperands
  have hsome := (presentOperands_isSome (operandClass l.op) (encode l.op) ws State.reset).2 (hlength.trans hcount)
  obtain ⟨s, hports⟩ := Option.isSome_iff_exists.1 hsome
  obtain ⟨v, hresult, -⟩ := step_of_presentOperands hports
  exact ⟨(lookup_eq_none_iff_not_mem _ _).2 (by simpa using hname),
    v, lineMeaning_eq_some_iff.2 ⟨ws, hwords, hresult⟩⟩

/-- Settles O43: by induction on the lines, each of which runs and binds its meaning. -/
theorem wellFormedTranscriptsRunToTheirEnd : Obligations.WellFormedTranscriptsRunToTheirEnd := by
  unfold Obligations.WellFormedTranscriptsRunToTheirEnd
  intro ls
  induction ls with
  | nil => exact fun d _ => ⟨d, rfl, rfl, by simp⟩
  | cons l ls ih =>
    intro d h
    rw [wellFormedTranscript, Bool.and_eq_true] at h
    obtain ⟨hline, hrest⟩ := h
    obtain ⟨hfree, v, hmeaning⟩ := lineMeaning_of_wellFormed hline
    obtain ⟨m, hrun, hnames⟩ := runLine_of_lineMeaning hfree hmeaning
    have hbound : m.names.map Prod.fst = d.names.map Prod.fst ++ [l.name] := by simp [hnames]
    obtain ⟨e, hend, hvalues, hall⟩ := ih m (by rwa [hbound])
    refine ⟨e, by rwa [runTranscript, hrun], ?_, ?_⟩
    · rw [hnames] at hvalues
      simpa only [transcriptMeaning, hmeaning] using hvalues
    · rw [hall, hbound, List.append_assoc, List.map_cons, List.singleton_append]

/-- Two lists of names in which every name has the same value. -/
def SameLookups (m n : Names) : Prop :=
  ∀ x : String, m.lookup x = n.lookup x

/-- Binding the same name to the same value keeps the lookups equal. -/
theorem SameLookups.bind {m n : Names} (h : SameLookups m n) (x : String) (v : Word) :
    SameLookups (m ++ [(x, v)]) (n ++ [(x, v)]) := fun y => by
  rw [List.lookup_append, List.lookup_append, h y]

/-- Two different names may be bound in either order. -/
theorem sameLookups_swap {x y : String} (hxy : x ≠ y) (names : Names) (v w : Word) :
    SameLookups (names ++ [(x, v)] ++ [(y, w)]) (names ++ [(y, w)] ++ [(x, v)]) := fun z => by
  by_cases hx : z = x
  · subst hx
    rw [lookup_bind_other _ _ hxy, List.lookup_append, List.lookup_append, lookup_bind_other _ _ hxy]
  · rw [lookup_bind_other _ v hx, List.lookup_append, lookup_bind_other names v hx, List.lookup_append]

/-- A line's meaning depends on the lookups of the names among its operands. -/
theorem lineMeaning_congr {m n : Names} {l : Line} (h : ∀ x, .name x ∈ l.operands → m.lookup x = n.lookup x) :
    lineMeaning m l = lineMeaning n l := by
  rw [lineMeaning, lineMeaning, operandWords_congr h]

/-- A line runs alike on desks whose names look up alike, whatever is on the ports. -/
theorem runLine_congr {l : Line} {d e d' : Desk} (hsame : SameLookups d.names e.names) (h : runLine l d = .next d') :
    ∃ e', runLine l e = .next e' ∧ SameLookups d'.names e'.names := by
  obtain ⟨hfree, v, hmeaning, hnames⟩ := lineMeaning_of_runLine h
  rw [hsame] at hfree
  rw [lineMeaning_congr fun x _ => hsame x] at hmeaning
  obtain ⟨e', hrun, hnames'⟩ := runLine_of_lineMeaning hfree hmeaning
  exact ⟨e', hrun, by rw [hnames, hnames']; exact hsame.bind _ _⟩

/-- A transcript runs its first line and then the rest. -/
theorem runTranscript_cons_eq_next_iff {l : Line} {ls : List Line} {d e : Desk} :
    runTranscript (l :: ls) d = .next e ↔ ∃ m, runLine l d = .next m ∧ runTranscript ls m = .next e := by
  rw [runTranscript]
  cases runLine l d <;> simp

/-- A transcript runs alike on desks whose names look up alike. -/
theorem runTranscript_congr {ls : List Line} {d e d' : Desk} (hsame : SameLookups d.names e.names)
    (h : runTranscript ls d = .next d') : ∃ e', runTranscript ls e = .next e' ∧ SameLookups d'.names e'.names := by
  induction ls generalizing d e with
  | nil =>
    cases h
    exact ⟨e, rfl, hsame⟩
  | cons l ls ih =>
    obtain ⟨m, hline, hrest⟩ := runTranscript_cons_eq_next_iff.1 h
    obtain ⟨m', hline', hsame'⟩ := runLine_congr hsame hline
    obtain ⟨e', hrest', hend⟩ := ih hsame' hrest
    exact ⟨e', runTranscript_cons_eq_next_iff.2 ⟨m', hline', hrest'⟩, hend⟩

/-- An independent next line may be run first, with the same meanings. -/
theorem runLine_swap {l m : Line} {d d₁ d₂ : Desk} (hind : Independent l m) (hl : runLine l d = .next d₁)
    (hm : runLine m d₁ = .next d₂) :
    ∃ e₁ e₂, runLine m d = .next e₁ ∧ runLine l e₁ = .next e₂ ∧ SameLookups d₂.names e₂.names := by
  obtain ⟨hne, hml, hlm⟩ := hind
  obtain ⟨hfreel, v, hv, hd₁⟩ := lineMeaning_of_runLine hl
  obtain ⟨hfreem, w, hw, hd₂⟩ := lineMeaning_of_runLine hm
  have hother : ∀ x, x ≠ l.name → d₁.names.lookup x = d.names.lookup x := fun x hx => by
    rw [hd₁, lookup_bind_other _ _ hx]
  rw [hother _ hne.symm] at hfreem
  rw [lineMeaning_congr fun x hx => hother x fun h => hlm (h ▸ hx)] at hw
  obtain ⟨e₁, hrunm, he₁⟩ := runLine_of_lineMeaning hfreem hw
  have hother' : ∀ x, x ≠ m.name → e₁.names.lookup x = d.names.lookup x := fun x hx => by
    rw [he₁, lookup_bind_other _ _ hx]
  rw [← hother' _ hne] at hfreel
  rw [← lineMeaning_congr fun x hx => hother' x fun h => hml (h ▸ hx)] at hv
  obtain ⟨e₂, hrunl, he₂⟩ := runLine_of_lineMeaning hfreel hv
  refine ⟨e₁, e₂, hrunm, hrunl, ?_⟩
  rw [hd₂, hd₁, he₂, he₁]
  exact sameLookups_swap hne _ _ _

/-- Settles O44: the two lines are run in either order from where `before` ends, and the rest runs alike. -/
theorem independentLinesMayBeExchanged : Obligations.IndependentLinesMayBeExchanged := by
  unfold Obligations.IndependentLinesMayBeExchanged
  intro before after l m d e hind h
  obtain ⟨d₀, hbefore, hrest⟩ := (runTranscript_append _ _ _ _).1 h
  obtain ⟨d₁, hl, hrest⟩ := runTranscript_cons_eq_next_iff.1 hrest
  obtain ⟨d₂, hm, hafter⟩ := runTranscript_cons_eq_next_iff.1 hrest
  obtain ⟨e₁, e₂, hm', hl', hsame⟩ := runLine_swap hind hl hm
  obtain ⟨e', hafter', hend⟩ := runTranscript_congr hsame hafter
  refine ⟨e', (runTranscript_append _ _ _ _).2 ⟨d₀, hbefore, ?_⟩, fun n => (hend n).symm⟩
  exact runTranscript_cons_eq_next_iff.2 ⟨e₁, hm', runTranscript_cons_eq_next_iff.2 ⟨e₂, hl', hafter'⟩⟩

end Sys2Proof.Machine
end

section
/-! PROOFS. Values (R2): the value of a word is its signed reading over the scale factor, so facts about values are facts
about integers. -/

namespace Sys2Proof.Machine

open Sys2Proof.Safety

/-- A word's value is a sum exactly when its signed reading is. -/
theorem value_eq_add_iff {w a b : Word} : value w = value a + value b ↔ s32 w = s32 a + s32 b := by
  rw [value, value, value, ← add_div, div_left_inj' (by norm_num)]
  exact_mod_cast Iff.rfl

/-- A word's value is a difference exactly when its signed reading is. -/
theorem value_eq_sub_iff {w a b : Word} : value w = value a - value b ↔ s32 w = s32 a - s32 b := by
  rw [value, value, value, ← sub_div, div_left_inj' (by norm_num)]
  exact_mod_cast Iff.rfl

/-- A word's value is an opposite exactly when its signed reading is. -/
theorem value_eq_neg_iff {w a : Word} : value w = -value a ↔ s32 w = -s32 a := by
  rw [value, value, ← neg_div, div_left_inj' (by norm_num)]
  exact_mod_cast Iff.rfl

/-- Values are in the order of the signed readings. -/
theorem value_le_value_iff {a b : Word} : value a ≤ value b ↔ s32 a ≤ s32 b := by
  rw [value, value, div_le_div_iff_of_pos_right (by norm_num), Int.cast_le]

end Sys2Proof.Machine
end

section
/-! PROOFS. 40_constants_and_pass.md section 1: MINUSONE, MAXVALUE and MINVALUE. -/

namespace Sys2Proof.Machine

open Sys2Proof.Safety

/-- MUL out of range gives MaxValue in either direction (decision D9). -/
theorem mulResult_of_out_of_range {a b : Word} (h : 2 ^ 47 ≤ s32 a * s32 b ∨ s32 a * s32 b < -2 ^ 47) :
    mulResult a b = maxWord := by
  rw [mulResult_eq_mulClosedForm, product, mulClosedForm]
  rcases h with habove | hbelow
  · rw [if_pos habove]
    rfl
  · rw [if_neg (by omega), if_pos hbelow]
    rfl

/-- Settles O11: the pattern's readings are computed. -/
theorem minusOneGeneratesRawMinus65536 : Obligations.MinusOneGeneratesRawMinus65536 := by
  unfold Obligations.MinusOneGeneratesRawMinus65536
  have hvalue : value minusOneWord = -1 := by norm_num [value]
  exact ⟨rfl, exec_minusone, s32_minusOneWord, by decide, hvalue⟩

/-- Settles O12: MaxValue is the upper end of the signed range, and MUL's answer out of range. -/
theorem maxValueGeneratesTheLargestRaw : Obligations.MaxValueGeneratesTheLargestRaw := by
  unfold Obligations.MaxValueGeneratesTheLargestRaw
  have hvalue : value maxWord = 32768 - 1 / 65536 := by norm_num [value]
  exact ⟨rfl, exec_maxvalue, s32_maxWord, hvalue, s32_le_s32_maxWord, fun a b h => mulResult_of_out_of_range h⟩

/-- Settles O13: MinValue is the lower end of the signed range, and MUL's answer out of range is another word. -/
theorem minValueGeneratesTheSmallestRaw : Obligations.MinValueGeneratesTheSmallestRaw := by
  unfold Obligations.MinValueGeneratesTheSmallestRaw
  have hvalue : value minWord = -32768 := by norm_num [value]
  have hnoOpposite : ∀ x, s32 x ≠ -s32 minWord := fun x => by
    have hbounds := s32_bounds x
    rw [s32_minWord]
    omega
  have hsaturation : maxWord ≠ minWord := by decide
  exact ⟨rfl, exec_minvalue, s32_minWord, hvalue, s32_minWord_le, hnoOpposite,
    fun a b h => (mulResult_of_out_of_range h).trans_ne hsaturation⟩

end Sys2Proof.Machine
end

section
/-! PROOFS. 41_additive.md: ADD, SUB and NEG. Their results are narrowed exact sums; the exact sum of two readings is at
most one wrap away from the range, and the laws are those of bit vectors. -/

namespace Sys2Proof.Machine

open Sys2Proof.Safety

variable {a b : Word}

/-- ADD is exact when the sum fits (R50). -/
theorem s32_addResult_of_fits (h : Fits32 (s32 a + s32 b)) : s32 (addResult a b) = s32 a + s32 b := by
  obtain ⟨hlow, hhigh⟩ := h
  rw [addResult_eq, s32_bv32_of_fits] <;> omega

/-- ADD wraps once above the range, to a negative reading (decision D8). -/
theorem s32_addResult_of_above (h : 2 ^ 31 ≤ s32 a + s32 b) :
    s32 (addResult a b) = s32 a + s32 b - 2 ^ 32 ∧ s32 (addResult a b) < 0 := by
  have ha := s32_bounds a
  have hb := s32_bounds b
  rw [addResult_eq, s32_bv32_of_above] <;> omega

/-- ADD wraps once below the range, to a non-negative reading (decision D8). -/
theorem s32_addResult_of_below (h : s32 a + s32 b < -2 ^ 31) :
    s32 (addResult a b) = s32 a + s32 b + 2 ^ 32 ∧ 0 ≤ s32 (addResult a b) := by
  have ha := s32_bounds a
  have hb := s32_bounds b
  rw [addResult_eq, s32_bv32_of_below] <;> omega

/-- SUB is exact when the difference fits (R51). -/
theorem s32_subResult_of_fits (h : Fits32 (s32 a - s32 b)) : s32 (subResult a b) = s32 a - s32 b := by
  obtain ⟨hlow, hhigh⟩ := h
  rw [subResult_eq, s32_bv32_of_fits] <;> omega

/-- SUB wraps once above the range, to a negative reading (decision D8). -/
theorem s32_subResult_of_above (h : 2 ^ 31 ≤ s32 a - s32 b) :
    s32 (subResult a b) = s32 a - s32 b - 2 ^ 32 ∧ s32 (subResult a b) < 0 := by
  have ha := s32_bounds a
  have hb := s32_bounds b
  rw [subResult_eq, s32_bv32_of_above] <;> omega

/-- SUB wraps once below the range, to a non-negative reading (decision D8). -/
theorem s32_subResult_of_below (h : s32 a - s32 b < -2 ^ 31) :
    s32 (subResult a b) = s32 a - s32 b + 2 ^ 32 ∧ 0 ≤ s32 (subResult a b) := by
  have ha := s32_bounds a
  have hb := s32_bounds b
  rw [subResult_eq, s32_bv32_of_below] <;> omega

/-- ADD is exact in value exactly when the sum fits (41_additive.md section 4). -/
theorem value_addResult_iff : value (addResult a b) = value a + value b ↔ Fits32 (s32 a + s32 b) := by
  rw [value_eq_add_iff]
  refine ⟨fun h => ?_, s32_addResult_of_fits⟩
  have hbounds := s32_bounds (addResult a b)
  omega

/-- SUB is exact in value exactly when the difference fits (41_additive.md section 4). -/
theorem value_subResult_iff : value (subResult a b) = value a - value b ↔ Fits32 (s32 a - s32 b) := by
  rw [value_eq_sub_iff]
  refine ⟨fun h => ?_, s32_subResult_of_fits⟩
  have hbounds := s32_bounds (subResult a b)
  omega

/-- The sign bit is the sign of the signed reading. -/
theorem msb_eq (v : Word) : v.msb = decide (s32 v < 0) :=
  BitVec.msb_eq_toInt

/-- The host's sign recognition of an ADD is right (R53). -/
theorem addOverflowSeen_iff : addOverflowSeen a b (addResult a b) = true ↔ ¬ Fits32 (s32 a + s32 b) := by
  have ha := s32_bounds a
  have hb := s32_bounds b
  simp only [addOverflowSeen, msb_eq, Bool.and_eq_true, beq_iff_eq, bne_iff_ne, ne_eq, decide_eq_decide]
  by_cases habove : 2 ^ 31 ≤ s32 a + s32 b
  · have hwrap := s32_addResult_of_above habove
    omega
  · by_cases hbelow : s32 a + s32 b < -2 ^ 31
    · have hwrap := s32_addResult_of_below hbelow
      omega
    · have hexact := s32_addResult_of_fits (a := a) (b := b) (by omega)
      omega

/-- The host's sign recognition of a SUB is right (R53). -/
theorem subOverflowSeen_iff : subOverflowSeen a b (subResult a b) = true ↔ ¬ Fits32 (s32 a - s32 b) := by
  have ha := s32_bounds a
  have hb := s32_bounds b
  simp only [subOverflowSeen, msb_eq, Bool.and_eq_true, bne_iff_ne, ne_eq, decide_eq_decide]
  by_cases habove : 2 ^ 31 ≤ s32 a - s32 b
  · have hwrap := s32_subResult_of_above habove
    omega
  · by_cases hbelow : s32 a - s32 b < -2 ^ 31
    · have hwrap := s32_subResult_of_below hbelow
      omega
    · have hexact := s32_subResult_of_fits (a := a) (b := b) (by omega)
      omega

/-- NEG is exact in value exactly off MinValue (R52). -/
theorem value_negResult_iff : value (negResult a) = -value a ↔ a ≠ minWord := by
  rw [value_eq_neg_iff]
  refine ⟨fun h hmin => ?_, s32_negResult⟩
  rw [hmin, negResult_minWord, s32_minWord] at h
  omega

/-- Settles O15: the three cases of the exact sum, and the laws of bit-vector addition. -/
theorem addWrapsModulo32Bits : Obligations.AddWrapsModulo32Bits := by
  unfold Obligations.AddWrapsModulo32Bits
  have hunsigned : ∀ a b, addResult a b = bv32 (u32 a + u32 b) := fun a b =>
    (addResult_eq a b).trans (wrapAdd_eq a b).symm
  have hcomm : ∀ a b, addResult a b = addResult b a := fun a b => by
    rw [addResult_eq_add, addResult_eq_add, BitVec.add_comm]
  have hassoc : ∀ a b c, addResult (addResult a b) c = addResult a (addResult b c) := fun a b c => by
    simp only [addResult_eq_add, BitVec.add_assoc]
  have hidentity : ∀ x, addResult x zeroWord = x ∧ addResult zeroWord x = x := fun x => by
    simp [addResult_eq]
  exact ⟨rfl, fun s => by rw [exec_add, hunsigned]; rfl, fun a b => ⟨hunsigned a b, addResult_eq a b⟩,
    fun a b h => ⟨s32_addResult_of_fits h, value_addResult_iff.2 h⟩,
    fun a b h => s32_addResult_of_above h, fun a b h => s32_addResult_of_below h, hcomm, hassoc, hidentity,
    by decide⟩

/-- Settles O16: the three cases of the exact difference, and subtraction as addition of the negation. -/
theorem subWrapsModulo32Bits : Obligations.SubWrapsModulo32Bits := by
  unfold Obligations.SubWrapsModulo32Bits
  have hunsigned : ∀ a b, subResult a b = bv32 (u32 a - u32 b) := fun a b =>
    (subResult_eq a b).trans (wrapSub_eq a b).symm
  have hself : ∀ x, subResult x x = zeroWord ∧ subResult x zeroWord = x := fun x =>
    ⟨(subResult_eq_sub x x).trans (BitVec.sub_self x), by simp [subResult_eq]⟩
  exact ⟨rfl, fun s => by rw [exec_sub, hunsigned]; rfl, fun a b => ⟨hunsigned a b, subResult_eq a b⟩,
    fun a b h => ⟨s32_subResult_of_fits h, value_subResult_iff.2 h⟩,
    fun a b h => s32_subResult_of_above h, fun a b h => s32_subResult_of_below h, hself,
    subResult_eq_addResult_negResult, by decide⟩

/-- Settles O17: NEG is the negation of bit vectors, and MinValue is the one reading it cannot negate. -/
theorem negIsTheWrappingNegation : Obligations.NegIsTheWrappingNegation := by
  unfold Obligations.NegIsTheWrappingNegation
  have hcomplement : ∀ a, negResult a = wrapAdd (~~~a) 1#32 := fun a => by
    have hsum : wrapAdd (~~~a) 1#32 = ~~~a + 1#32 := (wrapAdd_eq _ _).trans (addResult_eq_add _ _)
    rw [hsum, negResult_eq_neg, BitVec.neg_eq_not_add]
  have hnegative : ∀ a, s32 a < 0 ∧ s32 (negResult a) < 0 ↔ a = minWord := fun a => by
    by_cases hmin : a = minWord
    · simp [hmin, negResult_minWord]
    · rw [s32_negResult hmin]
      exact iff_of_false (by omega) hmin
  exact ⟨fun s => by rw [exec_neg, negResult_eq]; rfl, fun a => ⟨negResult_eq a, rfl, hcomplement a⟩,
    fun a h => s32_negResult h, negResult_minWord, hnegative,
    fun x => by rw [negResult_eq_neg, negResult_eq_neg, BitVec.neg_neg],
    fun x => by rw [addResult_eq_add, negResult_eq_neg, BitVec.add_right_neg]⟩

/-- Settles O33: exactness is fitting, and after a wrap, and only then, the signs disagree. -/
theorem additiveOverflowIsRecognisedByTheSigns : Obligations.AdditiveOverflowIsRecognisedByTheSigns := by
  unfold Obligations.AdditiveOverflowIsRecognisedByTheSigns
  exact ⟨fun a b => ⟨value_addResult_iff, addOverflowSeen_iff⟩, fun a b => ⟨value_subResult_iff, subOverflowSeen_iff⟩,
    fun a => ⟨value_negResult_iff, beq_iff_eq⟩⟩

end Sys2Proof.Machine
end

section
/-! PROOFS. 43_compare_shape.md sections 1 to 3: ABS, FLOOR and CEIL. -/

namespace Sys2Proof.Machine

open Sys2Proof.Safety

/-- The arithmetic shift by 31 spreads the sign bit: -1 below zero and 0 elsewhere. -/
theorem sshiftRight_31 (a : Word) : a.sshiftRight 31 = bv32 (if s32 a < 0 then -1 else 0) := by
  have hbounds := s32_bounds a
  have hshift : s32 (a.sshiftRight 31) = s32 a / 2147483648 := by
    rw [s32, BitVec.toInt_sshiftRight, Int.shiftRight_eq_div_pow]
    rfl
  refine eq_bv32_of_s32_eq ?_
  split <;> omega

/-- The branch-free form of ABS (G2): adding -1 and complementing is negation. -/
theorem absResult_eq_branchFree (a : Word) : absResult a = (a + a.sshiftRight 31) ^^^ a.sshiftRight 31 := by
  rw [sshiftRight_31]
  rcases lt_or_ge (s32 a) 0 with hneg | hnonneg
  · have hones : bv32 (-1) = BitVec.allOnes 32 := by decide
    have hpred : a + BitVec.allOnes 32 = ~~~(-a) := by rw [BitVec.not_neg, BitVec.sub_eq_add_neg]; rfl
    rw [absResult_of_neg hneg, negResult_eq_neg, if_pos hneg, hones, BitVec.xor_allOnes, hpred, BitVec.not_not]
  · have hzero : bv32 0 = 0#32 := by decide
    rw [absResult_of_nonneg hnonneg, if_neg (by omega), hzero, BitVec.add_zero, BitVec.xor_zero]

/-- ABS is the magnitude off MinValue (R60). -/
theorem s32_absResult {a : Word} (h : a ≠ minWord) : s32 (absResult a) = |s32 a| := by
  rcases lt_or_ge (s32 a) 0 with hneg | hnonneg
  · rw [absResult_of_neg hneg, s32_negResult h, abs_of_neg hneg]
  · rw [absResult_of_nonneg hnonneg, abs_of_nonneg hnonneg]

/-- ABS of MinValue is MinValue (R60). -/
theorem absResult_minWord : absResult minWord = minWord := by decide

/-- ABS is negative for MinValue alone (R60). -/
theorem s32_absResult_neg_iff (a : Word) : s32 (absResult a) < 0 ↔ a = minWord := by
  by_cases hmin : a = minWord
  · simp [hmin, absResult_minWord]
  · rw [s32_absResult hmin]
    exact iff_of_false (abs_nonneg _).not_gt hmin

/-- ABS is idempotent (R60). -/
theorem absResult_absResult (x : Word) : absResult (absResult x) = absResult x := by
  by_cases hmin : x = minWord
  · rw [hmin, absResult_minWord, absResult_minWord]
  · exact absResult_of_nonneg (by rw [s32_absResult hmin]; exact abs_nonneg _)

/-- ABS does not see the sign (at MinValue by decision D6). -/
theorem absResult_negResult (x : Word) : absResult (negResult x) = absResult x := by
  by_cases hmin : x = minWord
  · rw [hmin, negResult_minWord]
  · rw [absResult_eq, s32_negResult hmin, abs_neg, absResult_eq]

/-- Settles O26: by the sign, with MinValue, its own negation, apart. -/
theorem absIsTheWrappingMagnitude : Obligations.AbsIsTheWrappingMagnitude := by
  unfold Obligations.AbsIsTheWrappingMagnitude
  exact ⟨rfl, exec_abs, absResult_eq_branchFree, fun a h => s32_absResult h, s32_absResult_neg_iff,
    absResult_minWord, by decide, by decide, by decide, absResult_absResult,
    fun x => (absResult_negResult x).symm, by decide⟩

/-- FLOOR is the high half followed by zeros (R61). -/
theorem floorResult_eq_append (a : Word) : floorResult a = (BitVec.extractLsb 31 16 a ++ 0x0000#16 : BitVec 32) := by
  rw [floorResult_eq_shift, ← BitVec.toNat_inj, BitVec.toNat_append, BitVec.extractLsb_toNat,
    BitVec.toNat_shiftLeft, BitVec.toNat_ushiftRight, BitVec.toNat_ofNat, Nat.zero_mod, Nat.or_zero,
    Nat.shiftLeft_eq, Nat.shiftLeft_eq, Nat.shiftRight_eq_div_pow]
  have := a.isLt
  omega

/-- FLOOR on values (R61). -/
theorem value_floorResult (a : Word) : value (floorResult a) = ⌊value a⌋ := by
  have hfloor : ⌊value a⌋ = s32 a / 65536 := Rat.floor_intCast_div_natCast (s32 a) 65536
  rw [hfloor, value, s32_floorResult]
  push_cast
  ring

/-- FLOOR is not above its operand and loses less than One (R61). -/
theorem s32_floorResult_bounds (a : Word) :
    -2147483648 ≤ s32 (floorResult a) ∧ s32 (floorResult a) ≤ 2147418112 ∧ s32 (floorResult a) ≤ s32 a := by
  have hbounds := s32_bounds a
  have hfloor := s32_floorResult a
  omega

/-- FLOOR leaves no fraction (R61). -/
theorem u32_floorResult_emod (a : Word) : u32 (floorResult a) % 65536 = 0 := by
  rw [u32_emod_scale, s32_floorResult, Int.mul_emod_right]

/-- Settles O27: on the signed reading FLOOR rounds down to a multiple of the scale factor. -/
theorem floorClearsTheFraction : Obligations.FloorClearsTheFraction := by
  unfold Obligations.FloorClearsTheFraction
  have hread : s32 0x7FFF0000#32 = 2147418112 := by decide
  exact ⟨rfl, exec_floor, floorResult_eq_append, fun a => ⟨value_floorResult a, s32_floorResult a⟩,
    fun a => hread ▸ s32_floorResult_bounds a, by decide, by decide, fun a h => floorResult_of_whole h,
    by decide, by decide, by decide, fun x => floorResult_of_whole (u32_floorResult_emod x), by decide⟩

/-- The wrapping range of CEIL, on the signed reading (decision D11). -/
theorem ceil_wraps_iff (a : Word) : 0x7FFF0001 ≤ u32 a ∧ u32 a ≤ 0x7FFFFFFF ↔ 2147418112 < s32 a := by
  have hbounds := s32_bounds a
  have hread := u32_emod a
  omega

/-- CEIL does not wrap up to 32767.0 (R62). -/
theorem s32_ceilResult {a : Word} (h : s32 a ≤ 2147418112) : s32 (ceilResult a) = 65536 * ceilDiv (s32 a) := by
  have hbounds := s32_bounds a
  rw [ceilResult_eq, ceilDiv, s32_bv32_of_fits] <;> omega

/-- CEIL above 32767.0 wraps to MinValue (decision D11). -/
theorem ceilResult_of_wraps {a : Word} (h : 2147418112 < s32 a) : ceilResult a = minWord := by
  have hbounds := s32_bounds a
  have hceil : ceilDiv (s32 a) = 32768 := by
    rw [ceilDiv]
    omega
  rw [ceilResult_eq, hceil]
  rfl

/-- CEIL on values, up to 32767.0 (R62). -/
theorem value_ceilResult {a : Word} (h : s32 a ≤ 2147418112) : value (ceilResult a) = ⌈value a⌉ := by
  have hceil : ⌈value a⌉ = ceilDiv (s32 a) := Rat.ceil_intCast_div_natCast (s32 a) 65536
  rw [hceil, value, s32_ceilResult h]
  push_cast
  ring

/-- Up to 32767.0 CEIL is not below its operand (R62). -/
theorem s32_le_s32_ceilResult {a : Word} (h : s32 a ≤ 2147418112) : s32 a ≤ s32 (ceilResult a) := by
  rw [s32_ceilResult h, ceilDiv]
  omega

/-- CEIL leaves no fraction (R62). -/
theorem u32_ceilResult_emod (a : Word) : u32 (ceilResult a) % 65536 = 0 := by
  have hmod := s32_bv32_emod (65536 * ceilDiv (s32 a))
  rw [u32_emod_scale, ceilResult_eq]
  omega

/-- A fraction puts CEIL one above FLOOR, wrapping (R62). -/
theorem ceilResult_eq_addResult {a : Word} (h : u32 a % 65536 ≠ 0) :
    ceilResult a = addResult (floorResult a) oneWord := by
  rw [ceilResult_of_fraction h, addResult_eq]

/-- CEIL with its test on the unsigned reading (R62). -/
theorem ceilResult_eq_ite (a : Word) :
    ceilResult a =
      if u32 a % 65536 ≠ 0 then wrapAdd (a &&& 0xFFFF0000#32) oneWord else a &&& 0xFFFF0000#32 :=
  if_congr (not_congr (lowBits_eq_zero_iff a)) rfl rfl

/-- Settles O28: by whether the operand has a fraction, and whether it lies above 32767.0. -/
theorem ceilAddsOneToAClearedFraction : Obligations.CeilAddsOneToAClearedFraction := by
  unfold Obligations.CeilAddsOneToAClearedFraction
  have hbelow : ∀ a, s32 (ceilResult a) < s32 a ↔ 2147418112 < s32 a := fun a => by
    refine ⟨fun h => ?_, fun h => ?_⟩
    · by_contra hle
      exact absurd (s32_le_s32_ceilResult (not_lt.1 hle)) (not_le.2 h)
    · rw [ceilResult_of_wraps h, s32_minWord]
      omega
  refine ⟨fun s => ?_, fun a h => ?_, fun a h => ceilResult_of_wraps ((ceil_wraps_iff a).1 h),
    fun a => (hbelow a).trans (ceil_wraps_iff a).symm, u32_ceilResult_emod, fun a h => ?_, fun a h => ?_⟩
  · rw [exec_ceil, ceilResult_eq_ite]
    rfl
  · have hle : s32 a ≤ 2147418112 := not_lt.1 (mt (ceil_wraps_iff a).2 h)
    exact ⟨value_ceilResult hle, s32_le_s32_ceilResult hle⟩
  · rw [ceilResult_of_whole h, floorResult_of_whole h, subResult_eq_sub]
    exact ⟨rfl, BitVec.sub_self a⟩
  · rw [ceilResult_eq_addResult h, addResult_eq_add, subResult_eq_sub, BitVec.add_comm, BitVec.add_sub_cancel]
    rfl

end Sys2Proof.Machine
end

section
/-! PROOFS. 43_compare_shape.md sections 4, 5 and 7: MIN, MAX, CLAMP and the one comparison of the block. The idea: the
signed reading decides the word (R67), so a law of MIN, MAX or CLAMP is one of `min` and `max` on integers. -/

namespace Sys2Proof.Machine

open Sys2Proof.Safety

/-- MIN takes its operands in either order (R63). -/
theorem minResult_comm (a b : Word) : minResult a b = minResult b a := by
  rw [← s32_inj, s32_minResult, s32_minResult, min_comm]

/-- MAX takes its operands in either order (R64). -/
theorem maxResult_comm (a b : Word) : maxResult a b = maxResult b a := by
  rw [← s32_inj, s32_maxResult, s32_maxResult, max_comm]

/-- MIN of ordered operands (R63). -/
theorem minResult_of_le {a b : Word} (h : s32 a ≤ s32 b) : minResult a b = a := by
  rw [← s32_inj, s32_minResult, min_eq_left h]

/-- MAX of ordered operands (R64). -/
theorem maxResult_of_le {a b : Word} (h : s32 a ≤ s32 b) : maxResult a b = b := by
  rw [← s32_inj, s32_maxResult, max_eq_right h]

/-- MIN and MAX are the two operands in some order. -/
theorem minResult_maxResult_pair (a b : Word) :
    minResult a b = a ∧ maxResult a b = b ∨ minResult a b = b ∧ maxResult a b = a := by
  rcases le_total (s32 a) (s32 b) with h | h
  · exact .inl ⟨minResult_of_le h, maxResult_of_le h⟩
  · rw [minResult_comm, maxResult_comm]
    exact .inr ⟨minResult_of_le h, maxResult_of_le h⟩

/-- Settles O29: MIN is the minimum of the readings, and values are in their order. -/
theorem minIsTheSignedMinimum : Obligations.MinIsTheSignedMinimum := by
  unfold Obligations.MinIsTheSignedMinimum
  have hvalue : ∀ a b, value (minResult a b) = min (value a) (value b) := fun a b => by
    rcases le_total (s32 a) (s32 b) with h | h
    · rw [minResult_of_le h, min_eq_left (value_le_value_iff.2 h)]
    · rw [minResult_comm, minResult_of_le h, min_eq_right (value_le_value_iff.2 h)]
  have hlaws : ∀ x, minResult x x = x ∧ minResult x minWord = minWord ∧ minResult x maxWord = x := fun x =>
    ⟨minResult_of_le le_rfl, (minResult_comm _ _).trans (minResult_of_le (s32_minWord_le x)),
      minResult_of_le (s32_le_s32_maxWord x)⟩
  exact ⟨rfl, exec_min, hvalue, by decide, by decide, minResult_comm, hlaws,
    fun a b => (minResult_maxResult_pair a b).imp And.left And.left, by decide⟩

/-- Settles O30: MAX is the maximum of the readings, and the operand that MIN leaves. -/
theorem maxIsTheSignedMaximum : Obligations.MaxIsTheSignedMaximum := by
  unfold Obligations.MaxIsTheSignedMaximum
  have hvalue : ∀ a b, value (maxResult a b) = max (value a) (value b) := fun a b => by
    rcases le_total (s32 a) (s32 b) with h | h
    · rw [maxResult_of_le h, max_eq_right (value_le_value_iff.2 h)]
    · rw [maxResult_comm, maxResult_of_le h, max_eq_left (value_le_value_iff.2 h)]
  have hlaws : ∀ x, maxResult x x = x ∧ maxResult x maxWord = maxWord ∧ maxResult x minWord = x := fun x =>
    ⟨maxResult_of_le le_rfl, maxResult_of_le (s32_le_s32_maxWord x),
      (maxResult_comm _ _).trans (maxResult_of_le (s32_minWord_le x))⟩
  have hsum : ∀ a b, addResult (minResult a b) (maxResult a b) = addResult a b := fun a b => by
    rw [addResult_eq, addResult_eq, s32_minResult, s32_maxResult, min_add_max]
  exact ⟨rfl, exec_max, hvalue, by decide, by decide, maxResult_comm, hlaws,
    fun a b => (minResult_maxResult_pair a b).symm.imp And.right And.right, minResult_maxResult_pair, hsum,
    by decide⟩

/-- CLAMP leaves an operand between its bounds (R65). -/
theorem clampResult_of_mem {a b c : Word} (hlow : s32 b ≤ s32 a) (hhigh : s32 a ≤ s32 c) : clampResult a b c = a := by
  rw [← s32_inj, s32_clampResult, max_eq_left hlow, min_eq_left hhigh]

/-- The upper bound is applied last, so it wins over both others (R65, for crossed bounds decision D12). -/
theorem clampResult_of_upper {a b c : Word} (h : s32 c ≤ s32 a ∨ s32 c ≤ s32 b) : clampResult a b c = c := by
  rw [← s32_inj, s32_clampResult, min_eq_right (le_max_iff.2 h)]

/-- CLAMP lifts an operand to a lower bound that is not above the upper one (R65). -/
theorem clampResult_of_lower {a b c : Word} (hab : s32 a ≤ s32 b) (hbc : s32 b ≤ s32 c) : clampResult a b c = b := by
  rw [← s32_inj, s32_clampResult, max_eq_right hab, min_eq_left hbc]

/-- CLAMP answers one of its operands (R65). -/
theorem clampResult_mem (a b c : Word) : clampResult a b c = a ∨ clampResult a b c = b ∨ clampResult a b c = c := by
  by_cases hupper : s32 c ≤ s32 a ∨ s32 c ≤ s32 b
  · exact .inr (.inr (clampResult_of_upper hupper))
  · rcases le_total (s32 a) (s32 b) with hab | hba
    · exact .inr (.inl (clampResult_of_lower hab (by omega)))
    · exact .inl (clampResult_of_mem hba (by omega))

/-- Settles O31: by where the operand and the lower bound stand to the upper bound. -/
theorem clampAppliesTheLowerBoundFirst : Obligations.ClampAppliesTheLowerBoundFirst := by
  unfold Obligations.ClampAppliesTheLowerBoundFirst
  exact ⟨exec_clamp,
    fun a b c hbc => ⟨fun h => clampResult_of_lower h.le hbc, fun h => clampResult_of_upper (.inl h.le),
      clampResult_of_mem⟩,
    fun a b => clampResult_of_upper (.inr le_rfl), fun a b c h => clampResult_of_upper (.inr h.le), clampResult_mem,
    fun a => clampResult_of_mem (s32_minWord_le a) (s32_le_s32_maxWord a)⟩

/-- Flipping bit 31 turns the signed reading into the unsigned one, moved up by 2^31. -/
theorem u32_xor_minWord (x : Word) : u32 (x ^^^ minWord) = s32 x + 2147483648 := by
  have hlow : (x ^^^ minWord).toNat % 2 ^ 31 = x.toNat % 2 ^ 31 := by
    rw [BitVec.toNat_xor, Nat.xor_mod_two_pow]
    exact Nat.xor_zero _
  have htop : (x ^^^ minWord).toNat / 2 ^ 31 = x.toNat / 2 ^ 31 ^^^ 1 := by
    rw [BitVec.toNat_xor, Nat.xor_div_two_pow]
    rfl
  have hbounds := s32_bounds x
  have hread := u32_emod x
  have hlt := x.isLt
  rw [u32] at hread ⊢
  obtain hzero | hone : x.toNat / 2 ^ 31 = 0 ∨ x.toNat / 2 ^ 31 = 1 := by omega
  · rw [hzero, Nat.zero_xor] at htop
    omega
  · rw [hone, Nat.xor_self] at htop
    omega

/-- Settles O34: integers are totally ordered, and the reading decides the pattern. -/
theorem theComparisonIsATotalOrder : Obligations.TheComparisonIsATotalOrder := by
  unfold Obligations.TheComparisonIsATotalOrder
  refine ⟨fun x y => ?_, fun x => ⟨s32_minWord_le x, s32_le_s32_maxWord x⟩, fun x y => ?_, fun a b => ?_⟩
  · rw [← s32_inj]
    exact lt_trichotomy _ _
  · change _ ↔ u32 (x ^^^ minWord) < u32 (y ^^^ minWord)
    rw [u32_xor_minWord, u32_xor_minWord]
    omega
  · rw [← s32_inj, s32_minResult, Ne, ← s32_inj]
    omega

/-- Settles O39: the expansions of NEG and CLAMP are their definitions, and CLAMP01 is CLAMP between Zero and One. -/
theorem expansionsGiveTheSameResult : Obligations.ExpansionsGiveTheSameResult := by
  unfold Obligations.ExpansionsGiveTheSameResult
  have hneg : ∀ x, subResult zeroWord x = negResult x := fun x => by
    rw [subResult_eq, negResult_eq, s32_zeroWord, zero_sub]
  refine ⟨fun s x => ⟨negResult x, rfl, ?_⟩, fun s x lo hi => ⟨_, _, rfl, rfl, rfl⟩,
    fun s x => ⟨clamp01Result x, rfl, ?_⟩⟩
  · rw [← hneg]
    rfl
  · rw [clamp01Result_eq_clampResult]
    rfl

end Sys2Proof.Machine
end

section
/-! PROOFS. 42_multiply.md: MUL. The six steps are the model's `mulOfProduct`, the closed form of R56 says what they
amount to on the exact product, and every further fact is one about that closed form. -/

namespace Sys2Proof.Machine

open Sys2Proof.Safety

/-! ### The exact product (00_scope.md section 5) -/

/-- The exact product fits 64 bits. -/
theorem product_bmod (a b : Word) : (s32 a * s32 b).bmod (2 ^ 64) = s32 a * s32 b := by
  obtain ⟨hlow, hhigh⟩ := product_bounds a b
  rw [product] at hlow hhigh
  exact Int.bmod_eq_of_le (by omega) (by omega)

/-- The wrapping 64-bit product of the sign-extended operands is the exact one (R6). -/
theorem toInt_signExtend_mul (a b : Word) :
    (BitVec.signExtend 64 a * BitVec.signExtend 64 b).toInt = s32 a * s32 b := by
  rw [BitVec.toInt_mul, BitVec.toInt_signExtend_of_le (by decide), BitVec.toInt_signExtend_of_le (by decide)]
  exact product_bmod a b

/-- The exact product is not changed by narrowing to 64 bits (R6). -/
theorem toInt_bv64_product (a b : Word) : (bv64 (s32 a * s32 b)).toInt = s32 a * s32 b := by
  rw [bv64, BitVec.toInt_ofInt, product_bmod]

/-- Settles O20: the bounds of the exact product lie within 64 bits. -/
theorem theProductFitsSixtyFourBits : Obligations.TheProductFitsSixtyFourBits := by
  unfold Obligations.TheProductFitsSixtyFourBits
  refine ⟨fun a b => ?_, by decide, by decide⟩
  obtain ⟨hlow, hhigh⟩ := product_bounds a b
  exact ⟨hlow, hhigh, toInt_signExtend_mul a b, toInt_bv64_product a b, rfl⟩

/-! ### The steps, one by one -/

/-- A negative product out of range gives MaxValue (decision D9). -/
theorem mulOfProduct_of_neg_out {p : Int} (h : p < 0) (hcheck : upperBits p ≠ 0x1FFFF#17) :
    mulOfProduct p = maxWord := by
  rw [mulOfProduct, if_pos h, if_pos hcheck]
  rfl

/-- A negative product in range is corrected, shifted, rounded and cast (R55, decision D10). -/
theorem mulOfProduct_of_neg_in {p : Int} (h : p < 0) (hcheck : upperBits p = 0x1FFFF#17) :
    mulOfProduct p = bv32 (shiftAndRound (p - 1)) := by
  rw [mulOfProduct, if_pos h, if_neg (not_not.2 hcheck), narrow_eq]

/-- A non-negative product out of range gives MaxValue (R55). -/
theorem mulOfProduct_of_nonneg_out {p : Int} (h : 0 ≤ p) (hcheck : upperBits p ≠ 0#17) :
    mulOfProduct p = maxWord := by
  rw [mulOfProduct, if_neg (not_lt.2 h), if_pos hcheck]

/-- A non-negative product in range is shifted, rounded and cast (R55, decision D10). -/
theorem mulOfProduct_of_nonneg_in {p : Int} (h : 0 ≤ p) (hcheck : upperBits p = 0#17) :
    mulOfProduct p = bv32 (shiftAndRound p) := by
  rw [mulOfProduct, if_neg (not_lt.2 h), if_neg (not_not.2 hcheck), narrow_eq]

/-- The mask of bit 15 tests bit 15. -/
theorem and_mask15_ne_zero_iff (x : BitVec 64) : x &&& 0x8000#64 ≠ 0 ↔ x.getLsbD 15 = true := by
  have hmask : 0x8000#64 = BitVec.twoPow 64 15 := by decide
  have hne : BitVec.twoPow 64 15 ≠ 0 := by decide
  rw [hmask, BitVec.and_twoPow]
  split
  · next hbit => exact iff_of_true hne hbit
  · next hbit => exact iff_of_false (fun h => h rfl) hbit

/-- Steps 4 and 5 with the mask written out. -/
theorem shiftAndRound_eq_mask (q : Int) :
    shiftAndRound q = Int.fdiv q 65536 + (if bv64 q &&& 0x8000#64 ≠ 0 then 1 else 0) := by
  rw [shiftAndRound, Int.fdiv_eq_ediv_of_nonneg q (by decide),
    if_congr (and_mask15_ne_zero_iff (bv64 q)) rfl rfl]

/-- Settles O18: the branches of `mulOfProduct`, with the tie correction and the rounding bit as the rule writes them. -/
theorem mulCarriesOutTheSixSteps : Obligations.MulCarriesOutTheSixSteps := by
  unfold Obligations.MulCarriesOutTheSixSteps
  intro s prod upper q r
  have hr : shiftAndRound q = r := shiftAndRound_eq_mask q
  have hexec : ∀ {v}, mulOfProduct prod = v → exec .mul s = .next { s with y := v } := fun h => by
    rw [← h]
    rfl
  refine ⟨fun hneg hout => hexec (mulOfProduct_of_neg_out hneg hout), fun hneg hin => hexec ?_,
    fun hpos hout => hexec (mulOfProduct_of_nonneg_out hpos hout), fun hpos hin => hexec ?_⟩
  · have hq : q = prod - 1 := if_pos hneg
    rw [← hr, hq, mulOfProduct_of_neg_in hneg hin]
  · have hq : q = prod := if_neg (not_lt.2 hpos)
    rw [← hr, hq, mulOfProduct_of_nonneg_in hpos hin]

/-! ### The datapath of 64-bit vectors -/

/-- The arithmetic shift of a vector divides its signed reading, rounding down (G3). -/
theorem toInt_sshiftRight_eq_ediv (x : BitVec 64) (n : Nat) : (x.sshiftRight n).toInt = x.toInt / 2 ^ n := by
  rw [BitVec.toInt_sshiftRight, Int.shiftRight_eq_div_pow]
  norm_cast

/-- The low 32 bits of a 64-bit vector are its narrowed signed reading. -/
theorem setWidth_eq_bv32 (x : BitVec 64) : BitVec.setWidth 32 x = bv32 x.toInt :=
  (BitVec.signExtend_eq_setWidth_of_le x (by decide)).symm

/-- Bit 15 as a vector, low 32 bits. -/
theorem setWidth_bit15 (q : BitVec 64) :
    BitVec.setWidth 32 (BitVec.setWidth 64 (BitVec.extractLsb 15 15 q)) = bv32 (if q.getLsbD 15 then 1 else 0) := by
  have hbit : BitVec.extractLsb 15 15 q = BitVec.ofBool (q.getLsbD 15) := by
    ext i hi
    obtain rfl : i = 0 := by omega
    simp
  rw [hbit]
  cases q.getLsbD 15 <;> rfl

/-- Shifting a vector and adding its bit 15 is `shiftAndRound`, low 32 bits (R55). -/
theorem setWidth_shift_add_bit15 (q : BitVec 64) :
    BitVec.setWidth 32 (BitVec.sshiftRight q 16 + BitVec.setWidth 64 (BitVec.extractLsb 15 15 q)) =
      bv32 (shiftAndRound q.toInt) := by
  have hq : bv64 q.toInt = q := BitVec.ofInt_toInt
  rw [BitVec.setWidth_add _ _ (by decide), setWidth_eq_bv32 (q.sshiftRight 16), toInt_sshiftRight_eq_ediv,
    setWidth_bit15, shiftAndRound, hq]
  exact (BitVec.ofInt_add _ _).symm

/-- The range check of a negative product on vectors: the shift by 47 leaves -1 (reading (b)). -/
theorem sshiftRight_eq_allOnes_iff {p : BitVec 64} (h : p.toInt < 0) :
    p.sshiftRight 47 = BitVec.allOnes 64 ↔ upperBits p.toInt = 0x1FFFF#17 := by
  have hlow := BitVec.le_toInt p
  have hones : (BitVec.allOnes 64).toInt = -1 := by decide
  rw [upperBits_allOnes_iff (by omega) h, ← BitVec.toInt_inj, toInt_sshiftRight_eq_ediv, hones]
  omega

/-- The range check of a non-negative product on vectors: the shift by 47 leaves 0 (reading (b)). -/
theorem sshiftRight_eq_zero_iff {p : BitVec 64} (h : 0 ≤ p.toInt) :
    p.sshiftRight 47 = 0 ↔ upperBits p.toInt = 0#17 := by
  have hhigh := BitVec.toInt_lt (x := p)
  have hzero : (0 : BitVec 64).toInt = 0 := by decide
  rw [upperBits_zero_iff h (by omega), ← BitVec.toInt_inj, toInt_sshiftRight_eq_ediv, hzero]
  omega

/-- Decrementing a vector above the least decrements its signed reading. -/
theorem toInt_sub_one {p : BitVec 64} (h : -9223372036854775808 < p.toInt) : (p - 1).toInt = p.toInt - 1 := by
  have hhigh := BitVec.toInt_lt (x := p)
  have hone : (1 : BitVec 64).toInt = 1 := by decide
  rw [BitVec.toInt_sub, hone]
  exact Int.bmod_eq_of_le (by omega) (by omega)

/-- Settles O19: the 64-bit product is the exact one, and each step on vectors is the model's step on its reading. -/
theorem mulIsASixtyFourBitDatapath : Obligations.MulIsASixtyFourBitDatapath := by
  unfold Obligations.MulIsASixtyFourBitDatapath
  intro a b p upper q r
  have hlow := (product_bounds a b).1
  have hp : p.toInt = product a b := toInt_signExtend_mul a b
  have hr : BitVec.setWidth 32 r = bv32 (shiftAndRound q.toInt) := setWidth_shift_add_bit15 q
  have hsign : p.msb = true ↔ p.toInt < 0 := by rw [BitVec.msb_eq_toInt, decide_eq_true_eq]
  rw [mulResult, ← hp, hr]
  by_cases hneg : p.toInt < 0
  · have hq : q = p - 1 := if_pos (hsign.2 hneg)
    have hcheck : upper = BitVec.allOnes 64 ↔ upperBits p.toInt = 0x1FFFF#17 := sshiftRight_eq_allOnes_iff hneg
    rw [if_pos (hsign.2 hneg), hq, toInt_sub_one (by omega)]
    split
    · next hin => exact mulOfProduct_of_neg_in hneg (hcheck.1 hin)
    · next hout => exact mulOfProduct_of_neg_out hneg (mt hcheck.2 hout)
  · have hnonneg : 0 ≤ p.toInt := not_lt.1 hneg
    have hq : q = p := if_neg (mt hsign.1 hneg)
    have hcheck : upper = 0 ↔ upperBits p.toInt = 0#17 := sshiftRight_eq_zero_iff hnonneg
    rw [if_neg (mt hsign.1 hneg), hq]
    split
    · next hin => exact mulOfProduct_of_nonneg_in hnonneg (hcheck.1 hin)
    · next hout => exact mulOfProduct_of_nonneg_out hnonneg (mt hcheck.2 hout)

/-! ### The closed form and what follows from it -/

/-- Settles O21. -/
theorem mulEqualsItsClosedForm : Obligations.MulEqualsItsClosedForm := by
  unfold Obligations.MulEqualsItsClosedForm
  exact mulResult_eq_mulClosedForm

/-- A non-negative product in range is rounded half up (R56). -/
theorem mulClosedForm_of_nonneg {p : Int} (h : 0 ≤ p) (hlt : p < 2 ^ 47) :
    mulClosedForm p = bv32 ((p + 32768) / 65536) := by
  rw [mulClosedForm, if_neg (by omega), if_neg (by omega), if_pos h]

/-- A negative product in range is rounded half down (R56). -/
theorem mulClosedForm_of_neg {p : Int} (h : p < 0) (hge : -2 ^ 47 ≤ p) :
    mulClosedForm p = bv32 ((p + 32767) / 65536) := by
  rw [mulClosedForm, if_neg (by omega), if_neg (by omega), if_neg (by omega)]

/-- MUL on the signed reading, for a non-negative product below the corner (R56). -/
theorem s32_mulResult_of_nonneg {a b : Word} (h : 0 ≤ s32 a * s32 b) (hlt : s32 a * s32 b < 2 ^ 47 - 32768) :
    s32 (mulResult a b) = (s32 a * s32 b + 32768) / 65536 := by
  rw [mulResult_eq_mulClosedForm, product, mulClosedForm_of_nonneg h (by omega), s32_bv32_of_fits] <;> omega

/-- MUL on the signed reading, for a negative product in range (R56). -/
theorem s32_mulResult_of_neg {a b : Word} (h : s32 a * s32 b < 0) (hge : -2 ^ 47 ≤ s32 a * s32 b) :
    s32 (mulResult a b) = (s32 a * s32 b + 32767) / 65536 := by
  rw [mulResult_eq_mulClosedForm, product, mulClosedForm_of_neg h hge, s32_bv32_of_fits] <;> omega

/-- Rounding half up is to the nearest and away from zero, from zero up. -/
theorem nearestAwayFromZero_of_nonneg {p : Int} (h : 0 ≤ p) : NearestAwayFromZero p ((p + 32768) / 65536) := by
  simp only [NearestAwayFromZero, Int.abs_eq_natAbs]
  omega

/-- Rounding half down is to the nearest and away from zero, below zero. -/
theorem nearestAwayFromZero_of_neg {p : Int} (h : p < 0) : NearestAwayFromZero p ((p + 32767) / 65536) := by
  simp only [NearestAwayFromZero, Int.abs_eq_natAbs]
  omega

/-- MUL rounds to the nearest, and a tie away from zero (R57). -/
theorem mulResult_nearest {a b : Word} (h : RoundsInRange (s32 a * s32 b)) :
    NearestAwayFromZero (s32 a * s32 b) (s32 (mulResult a b)) := by
  obtain ⟨hlow, hhigh⟩ := h
  rcases lt_or_ge (s32 a * s32 b) 0 with hneg | hnonneg
  · rw [s32_mulResult_of_neg hneg hlow]
    exact nearestAwayFromZero_of_neg hneg
  · rw [s32_mulResult_of_nonneg hnonneg hhigh]
    exact nearestAwayFromZero_of_nonneg hnonneg

/-- A raw result within half a step of the exact product is within 2^-17 of it in value (R57). -/
theorem abs_value_sub_le {w a b : Word} (h : 2 * |65536 * s32 w - s32 a * s32 b| ≤ 65536) :
    |value w - value a * value b| ≤ 1 / 2 ^ 17 := by
  have hcast : (2 : Rat) * |65536 * (s32 w : Rat) - s32 a * s32 b| ≤ 65536 := by exact_mod_cast h
  have hdiff : value w - value a * value b = (65536 * (s32 w : Rat) - s32 a * s32 b) / 4294967296 := by
    rw [value, value, value]
    ring
  rw [hdiff, abs_div, abs_of_pos (by norm_num : (0 : Rat) < 4294967296), div_le_iff₀ (by norm_num)]
  linarith

/-- Settles O22: the rounding of the closed form, sign by sign. -/
theorem mulRoundsToNearestTiesAwayFromZero : Obligations.MulRoundsToNearestTiesAwayFromZero := by
  unfold Obligations.MulRoundsToNearestTiesAwayFromZero
  refine ⟨fun a b h => ⟨mulResult_nearest h, abs_value_sub_le (mulResult_nearest h).1⟩,
    fun a b ⟨hlow, hhigh⟩ htie => ⟨fun hnonneg => ?_, fun hneg => ?_⟩, by decide⟩
  · rw [s32_mulResult_of_nonneg hnonneg hhigh]
    omega
  · rw [s32_mulResult_of_neg hneg hlow]
    omega

/-- MUL is commutative (R58). -/
theorem mulResult_comm (a b : Word) : mulResult a b = mulResult b a := by
  rw [mulResult, mulResult, product, product, mul_comm]

/-- MUL by Zero is Zero (R58). -/
theorem mulResult_zeroWord (x : Word) : mulResult x zeroWord = zeroWord := by
  rw [mulResult_eq_mulClosedForm, product, s32_zeroWord, mul_zero]
  rfl

/-- NEG of a narrowed integer is the narrowed opposite. -/
theorem negResult_bv32 (n : Int) : negResult (bv32 n) = bv32 (-n) := by
  rw [negResult_eq_neg]
  exact BitVec.ofInt_neg.symm

/-- The closed form is odd below the corner: half up and half down are mirror images. -/
theorem mulClosedForm_neg {p : Int} (hp : RoundsInRange p) (hn : RoundsInRange (-p)) :
    mulClosedForm (-p) = negResult (mulClosedForm p) := by
  obtain ⟨hlow, hhigh⟩ := hp
  obtain ⟨hlow', hhigh'⟩ := hn
  rcases lt_trichotomy p 0 with hneg | rfl | hpos
  · have hmirror : (-p + 32768) / 65536 = -((p + 32767) / 65536) := by omega
    rw [mulClosedForm_of_nonneg (by omega) (by omega), mulClosedForm_of_neg hneg hlow, negResult_bv32, hmirror]
  · rfl
  · have hmirror : (-p + 32767) / 65536 = -((p + 32768) / 65536) := by omega
    rw [mulClosedForm_of_neg (by omega) hlow', mulClosedForm_of_nonneg hpos.le (by omega), negResult_bv32, hmirror]

/-- The sign of an operand is the sign of the result, outside saturation and the corner (R58). -/
theorem mulResult_negResult {a b : Word} (ha : a ≠ minWord) (h : RoundsInRange (s32 a * s32 b))
    (h' : RoundsInRange (s32 (negResult a) * s32 b)) : mulResult (negResult a) b = negResult (mulResult a b) := by
  have hproduct : s32 (negResult a) * s32 b = -(s32 a * s32 b) := by rw [s32_negResult ha, Int.neg_mul]
  rw [hproduct] at h'
  rw [mulResult_eq_mulClosedForm, mulResult_eq_mulClosedForm, product, product, hproduct, mulClosedForm_neg h h']

/-- Beyond 2^47 in magnitude both signs saturate to MaxValue (R58, decision D9). -/
theorem mulResult_negResult_of_beyond {a b : Word} (h : 2 ^ 47 < |s32 a * s32 b|) :
    mulResult a b = maxWord ∧ mulResult (negResult a) b = maxWord := by
  have hsign : 2 ^ 47 < s32 a * s32 b ∨ 2 ^ 47 < -(s32 a * s32 b) := lt_abs.1 h
  have ha : mulResult a b = maxWord := mulResult_of_out_of_range (by omega)
  refine ⟨ha, ?_⟩
  by_cases hmin : a = minWord
  · rwa [hmin, negResult_minWord, ← hmin]
  · refine mulResult_of_out_of_range ?_
    rw [s32_negResult hmin, Int.neg_mul]
    omega

/-- MUL by MinusOne is NEG off MinValue (R58). -/
theorem mulResult_minusOneWord {x : Word} (h : x ≠ minWord) : mulResult x minusOneWord = negResult x := by
  have hbounds := s32_bounds x
  rw [Ne, eq_minWord_iff] at h
  have hproduct : s32 x * s32 minusOneWord = -s32 x * 65536 := by
    rw [s32_minusOneWord]
    ring
  rw [mulResult_eq_mulClosedForm, product, hproduct, mulClosedForm_mul_scale (by omega), negResult_eq]

/-- Settles O23: each property from the closed form; for (vi), 2^-16 times 2^15 and then 2 associates but for rounding. -/
theorem mulHasItsAlgebraicProperties : Obligations.MulHasItsAlgebraicProperties := by
  unfold Obligations.MulHasItsAlgebraicProperties
  have hassoc : mulResult (mulResult 0x00000001#32 0x00004000#32) 0x00040000#32 ≠
      mulResult 0x00000001#32 (mulResult 0x00004000#32 0x00040000#32) := by decide
  exact ⟨mulResult_oneWord, mulResult_comm, mulResult_zeroWord, fun a b => mulResult_negResult,
    fun a b => mulResult_negResult_of_beyond, ⟨_, _, _, hassoc⟩, fun x => mulResult_minusOneWord, by decide,
    negResult_minWord⟩

/-! ### The wrapping corner and the saturation -/

/-- In the corner the rounded result is 2^31, whose low 32 bits are MinValue (decision D10). -/
theorem mulResult_of_corner {a b : Word} (hlow : 2 ^ 47 - 32768 ≤ s32 a * s32 b) (hhigh : s32 a * s32 b < 2 ^ 47) :
    mulResult a b = minWord := by
  have hround : (s32 a * s32 b + 32768) / 65536 = 2147483648 := by omega
  rw [mulResult_eq_mulClosedForm, product, mulClosedForm_of_nonneg (by omega) hhigh, hround]
  rfl

/-- Settles O24: below the corner the result is not negative, above it MaxValue. -/
theorem mulWrapsExactlyInItsCorner : Obligations.MulWrapsExactlyInItsCorner := by
  unfold Obligations.MulWrapsExactlyInItsCorner
  have hexactly : ∀ a b, 0 < s32 a * s32 b ∧ mulResult a b = minWord ↔
      2 ^ 47 - 32768 ≤ s32 a * s32 b ∧ s32 a * s32 b ≤ 2 ^ 47 - 1 := fun a b => by
    refine ⟨fun ⟨hpos, hmin⟩ => ?_, fun ⟨hlow, hhigh⟩ => ⟨by omega, mulResult_of_corner hlow (by omega)⟩⟩
    rw [eq_minWord_iff] at hmin
    by_contra hout
    rcases lt_or_ge (s32 a * s32 b) (2 ^ 47 - 32768) with hbelow | habove
    · have hread := s32_mulResult_of_nonneg hpos.le hbelow
      omega
    · rw [mulResult_of_out_of_range (.inl (by omega)), s32_maxWord] at hmin
      omega
  have hcorner : ∀ p : Int, 2 ^ 47 - 32768 ≤ p ∧ p ≤ 2 ^ 47 - 1 →
      upperBits p = 0#17 ∧ p / 65536 = 2 ^ 31 - 1 ∧ shiftAndRound p = 2 ^ 31 := fun p h => by
    rw [upperBits_zero_iff (by omega) (by omega), shiftAndRound_eq]
    omega
  exact ⟨hexactly, hcorner, by decide, by decide, by decide⟩

/-- Settles O25: MaxValue answers every product out of range, and the exact product of MaxValue and One too. -/
theorem saturationLeavesNoSignal : Obligations.SaturationLeavesNoSignal := by
  unfold Obligations.SaturationLeavesNoSignal
  refine ⟨fun a b h => ?_, maxWord, oneWord, by simp, by simp, mulResult_oneWord _⟩
  rw [mulResult_of_out_of_range (a := a) (b := b) (by omega)]
  decide

end Sys2Proof.Machine
end

section
/-! PROOFS. The tier 1 statements: reset, the operation codes, what an evaluation leaves unchanged, and the mnemonics. -/

namespace Sys2Proof.Machine

/-- Settles O1: the reset ports are written out in the model. -/
theorem resetPortsHoldTheLoggedValues : Obligations.ResetPortsHoldTheLoggedValues := by
  unfold Obligations.ResetPortsHoldTheLoggedValues
  exact ⟨rfl, rfl, rfl, rfl, rfl⟩

/-- Settles O2: the reset ports are what PASS of a zero port answers, so they are the state after a step. -/
theorem resetIsSettled : Obligations.ResetIsSettled := by
  have hstep : step State.reset = .next State.reset := rfl
  exact everyStepLeavesTheOutputSettled State.reset State.reset hstep

/-- A word of the opcode table that selects an operation presents that operation's code. -/
theorem tableCode_of_decodeTableWord {nbits w : Nat} {i : Instr} (h : decodeTableWord nbits w = some i) :
    tableCode nbits w = encode i := by
  rw [decodeTableWord] at h
  cases hdecode : decode (tableCode nbits w) with
  | ok j =>
    rw [hdecode] at h
    cases h
    exact eq_encode_of_decode hdecode
  | error r =>
    rw [hdecode] at h
    cases h

/-- Settles O3: a step runs what the code decodes to, and a table word drives that code. -/
theorem stepRunsTheSelectedOperation : Obligations.StepRunsTheSelectedOperation := by
  unfold Obligations.StepRunsTheSelectedOperation
  refine ⟨fun s i h => step_of_decode h, fun s nbits w i h => ?_⟩
  rw [State.withFetchWord, tableCode_of_decodeTableWord h]
  exact step_of_decode (s := { s with op := encode i }) (decode_encode i)

/-- Settles O4: row by row, and bit 4 operation by operation. -/
theorem codesDecodeAsTableTwo : Obligations.CodesDecodeAsTableTwo := by
  unfold Obligations.CodesDecodeAsTableTwo
  have hbit4 : ∀ i : Instr, (encode i).getLsbD 4 = true ↔ operandClass i = .classN := fun i => by
    cases i <;> decide
  exact ⟨rfl, rfl, rfl, rfl, rfl, rfl, rfl, rfl, rfl, rfl, rfl, rfl, rfl, rfl, rfl, rfl, rfl, hbit4⟩

/-- A code read as a byte of the opcode table is itself. -/
theorem tableCode_toNat (op : Code) : tableCode 8 op.toNat = op := by
  have hlt := op.isLt
  rw [tableCode, Nat.mod_eq_of_lt (by omega), BitVec.ofNat_toNat, BitVec.setWidth_eq]

/-- Settles O5: the two directions of the round trip, on the port and on a byte of the table. -/
theorem encodeAndDecodeAgree : Obligations.EncodeAndDecodeAgree := by
  unfold Obligations.EncodeAndDecodeAgree
  refine ⟨fun i => ⟨decode_encode i, ?_⟩, fun op i => eq_encode_of_decode⟩
  rw [decodeTableWord, tableCode_toNat, decode_encode]

/-- The reserved codes by number (R33). -/
theorem definedCode_eq_false_iff (op : Code) :
    definedCode op = false ↔ (0x0C ≤ op.toNat ∧ op.toNat ≤ 0x0F) ∨ (0x15 ≤ op.toNat ∧ op.toNat ≤ 0x1F) := by
  simp [definedCode]
  omega

/-- A step is refused under the reserved codes alone, each as itself (R33). -/
theorem step_eq_refused_iff (s : State) (r : Refusal) :
    step s = .refused r ↔ definedCode s.op = false ∧ r = .reservedCode s.op := by
  rcases step_cases s with ⟨i, v, hdecode, -, hstep⟩ | ⟨hreserved, hstep⟩
  · have hdefined : definedCode s.op = true := by
      rw [eq_encode_of_decode hdecode]
      exact definedCode_encode i
    simp [hstep, hdefined]
  · simp [hstep, hreserved, eq_comm]

/-- Settles O6: a step is refused exactly under a reserved code, and those are listed by number. -/
theorem exactlyTheReservedCodesAreRefused : Obligations.ExactlyTheReservedCodesAreRefused := by
  unfold Obligations.ExactlyTheReservedCodesAreRefused
  refine ⟨fun s => ?_, fun s r h => ((step_eq_refused_iff s r).1 h).2⟩
  rw [step_eq_refused_iff, ← definedCode_eq_false_iff]
  exact and_iff_left rfl

/-- Every operation answers a next state that differs in `y` alone (R3, R9). -/
theorem exec_eq_next_driveY (i : Instr) (s : State) : ∃ v, exec i s = .next (s.driveY v) := by
  cases i <;> exact ⟨_, rfl⟩

/-- Settles O7: every operation completes, so a step stops at a reserved code alone, and that is no fault. -/
theorem noOperandValueStopsAnOperation : Obligations.NoOperandValueStopsAnOperation := by
  unfold Obligations.NoOperandValueStopsAnOperation
  refine ⟨exec_eq_next_driveY, fun s hdefined => ?_, fun s f => by cases f⟩
  rcases step_cases s with ⟨i, v, -, -, hstep⟩ | ⟨hreserved, -⟩
  · exact ⟨v, hstep⟩
  · rw [hdefined] at hreserved
    cases hreserved

/-- Settles O8: the next state is the old one with another `y`. -/
theorem operationsDriveOnlyTheResultPort : Obligations.OperationsDriveOnlyTheResultPort := by
  unfold Obligations.OperationsDriveOnlyTheResultPort
  intro i s t h
  obtain ⟨v, hexec⟩ := exec_eq_next_driveY i s
  rw [hexec] at h
  cases h
  exact ⟨rfl, rfl, rfl, rfl⟩

/-- Only mnemonics and the two aliases are read (R34). -/
theorem mnemonic_of_instrOfMnemonic {m : String} {i : Instr} (h : instrOfMnemonic m = some i) :
    m = mnemonic i ∨ (m = "FROMRAW" ∧ i = .pass) ∨ (m = "NEGATE" ∧ i = .neg) := by
  rw [instrOfMnemonic] at h
  split at h
  · next hname => exact .inr (.inl ⟨hname, (Option.some_inj.1 h).symm⟩)
  · split at h
    · next hname => exact .inr (.inr ⟨hname, (Option.some_inj.1 h).symm⟩)
    · have hfound := List.find?_some h
      exact .inl (beq_iff_eq.1 hfound).symm

/-- Settles O40: by the mnemonics, the aliases, and the one list in which a name is looked up. -/
theorem mnemonicsAndAliasesNameTheirOperations : Obligations.MnemonicsAndAliasesNameTheirOperations := by
  unfold Obligations.MnemonicsAndAliasesNameTheirOperations
  exact ⟨instrOfMnemonic_mnemonic, rfl, rfl, fun m i => mnemonic_of_instrOfMnemonic⟩

end Sys2Proof.Machine
end
